-- ==== Sys2Proof/Word.lean ====
section
/-! DEFINITION. The words of the MIU: the 32-bit pattern every register and command word is (00_scope.md R6),
the 5-bit word index (20_memory.md R40), and the byte of a byte-addressed bus (R48). -/

namespace Sys2Proof

/-- A register's pattern, or a command word: bits 31 (most significant) to 0 (R6). -/
abbrev Word := BitVec 32

/-- A word index of the register space: 0x00 to 0x1F (R40). -/
abbrev Index := BitVec 5

/-- One byte lane's contents, only for the byte-addressed bus of R48. -/
abbrev Byte := BitVec 8

end Sys2Proof
end

