-- ==== Sys2Proof/Config.lean ====
section
/-! DEFINITION. What is fixed for the machine: the parameters of 00_scope.md R5, and the one parameter the spec
leaves OPEN, the byte lane order of a byte-addressed bus (20_memory.md R48, 92_eei_decisions.md D18). -/

namespace Sys2Proof.Config

/-- The modulus of every matrix command: the constant 26, not an operand (R5). -/
abbrev modulus : Int := 26

/-- The reset value of the register `M`: 0x0000001A (R35). -/
abbrev resetModulus : Word := 0x0000001A#32

/-- The highest mapped word index (R20, R45). -/
abbrev lastIndex : Index := 0x13#5

/-- The index of the command register (R25). -/
abbrev cmdIndex : Index := 0x00#5

/-- `BUS_BYTE_ORDER` (R48), OPEN: the lane (byte offset inside the word) that carries byte `k` of a register, `k = 0`
being bits 7:0. A constant with no body: no proof can see which order it is (log entry 10, safe). -/
opaque busByteOrder : Equiv.Perm (Fin 4)

end Sys2Proof.Config
end

