-- ==== Sys2Proof/Machine/Transaction.lean ====
section
/-! DEFINITION. What passes through the host port (20_memory.md R42): transactions, responses, and the names of the
twenty registers (10_state.md R20) with their word indices. -/

namespace Sys2Proof.Machine

/-- The twenty registers by the names of R20. -/
inductive Reg where
  | cmd | status | a | m
  | ma0 | ma1 | ma2 | ma3
  | mb0 | mb1 | mb2 | mb3
  | v0 | v1 | np | nc
  | r0 | r1 | r2 | r3
  deriving DecidableEq, Repr

/-- One transaction of the host port (R42), the unit of atomicity and of ordering (R47). -/
inductive Transaction where
  /-- `RegRead(i)` (R43). -/
  | regRead (i : Index)
  /-- `RegWrite(i, v)` (R44). -/
  | regWrite (i : Index) (v : Word)
  /-- `Reset` (R160). -/
  | reset
  deriving DecidableEq, Repr

/-- The port's answer to a read or a write (R42). A `Reset` has none (R160). -/
inductive Response where
  /-- `Ok(v)`, the answer to a read of a mapped index. -/
  | value (v : Word)
  /-- `Ok`, the answer to a write of a mapped index. -/
  | ok
  /-- `BusError`, the answer at an unmapped index (R45): a response, not a state of the MIU (R149). -/
  | busError
  deriving DecidableEq, Repr

/-- The word index of a register (R20). -/
def Reg.index : Reg → Index
  | .cmd => 0x00#5 | .status => 0x01#5 | .a => 0x02#5 | .m => 0x03#5
  | .ma0 => 0x04#5 | .ma1 => 0x05#5 | .ma2 => 0x06#5 | .ma3 => 0x07#5
  | .mb0 => 0x08#5 | .mb1 => 0x09#5 | .mb2 => 0x0A#5 | .mb3 => 0x0B#5
  | .v0 => 0x0C#5 | .v1 => 0x0D#5 | .np => 0x0E#5 | .nc => 0x0F#5
  | .r0 => 0x10#5 | .r1 => 0x11#5 | .r2 => 0x12#5 | .r3 => 0x13#5

/-- All registers, in the order of R20's table. -/
def Reg.all : List Reg :=
  [.cmd, .status, .a, .m, .ma0, .ma1, .ma2, .ma3, .mb0, .mb1, .mb2, .mb3, .v0, .v1, .np, .nc, .r0, .r1, .r2, .r3]

/-- The register at a word index, none at the unmapped indices 0x14 to 0x1F (R40, R45). -/
def Reg.ofIndex (i : Index) : Option Reg := Reg.all[i.toNat]?

end Sys2Proof.Machine
end

