-- ==== Sys2Proof/Syntax.lean ====
section
/-! DEFINITION. The seven commands, one constructor per row of spec/opcode_table.json (30_encoding.md R62). No command
carries a field in its word (R60, R64), so no constructor has an argument. -/

namespace Sys2Proof

/-- A legal command (R62). Its operand and result registers are implicit (R65). -/
inductive Instr where
  /-- `MODINV`, the modular inverse of `A` modulo `M` (R80). -/
  | modinv
  /-- `MULV`, matrix times digraph (R92). -/
  | mulv
  /-- `DET`, the determinant (R94). -/
  | det
  /-- `ADJ`, the adjugate (R96). -/
  | adj
  /-- `INV`, adjugate-based inversion (R98). -/
  | inv
  /-- `MULM`, the matrix product (R100). -/
  | mulm
  /-- `SOLVE`, the known-plaintext key solve (R110). -/
  | solve
  deriving DecidableEq, Repr

end Sys2Proof
end

