-- ==== Sys2Proof/WellFormed.lean ====
section
/-! DEFINITION. What is well formed: an instruction (always, for it has no field), a command word (30_encoding.md R60,
R62), and a transaction or program of the host (20_memory.md R45). None of these checks guards the machine: an
ill-formed word is answered with `IllegalCommand` (R63), an unmapped index with `BusError` (R45). -/

namespace Sys2Proof

/-- Every command is well formed: format C has no operand field (R60, R64). -/
def Instr.wellFormed : Instr → Bool
  | .modinv | .mulv | .det | .adj | .inv | .mulm | .solve => true

/-- The `zero` field of a command word, bits 31:8 (R60). -/
def zeroField (w : Word) : BitVec 24 := w.extractLsb' 8 24

/-- The `op` field of a command word, bits 7:0 (R60). -/
def opField (w : Word) : BitVec 8 := w.extractLsb' 0 8

/-- A command word is legal exactly when its `zero` field is 0 and its `op` is 0x01 to 0x07 (R60, R62, R63). -/
def legalWord (w : Word) : Bool :=
  zeroField w == 0 && decide (1 ≤ (opField w).toNat) && decide ((opField w).toNat ≤ 7)

namespace Machine

/-- A transaction is well formed when its index is mapped (R45: a model may treat a host program that draws a
`BusError` as ill-formed; this model serves it all the same). -/
def Transaction.wellFormed : Transaction → Bool
  | .regRead i => decide (i ≤ Config.lastIndex)
  | .regWrite i _ => decide (i ≤ Config.lastIndex)
  | .reset => true

/-- A program is well formed when each of its transactions is (R70). -/
def wellFormedProgram (ts : List Transaction) : Bool := ts.all Transaction.wellFormed

end Machine

end Sys2Proof
end

