-- ==== Sys2Proof/Decode.lean ====
section
/-! DEFINITION. Decoding a command word (30_encoding.md R61, R63) and encoding a command (R62). Decoding reads only
the word: never `STATUS`, earlier commands or operands (R61). -/

namespace Sys2Proof

/-- Why a word is no command (R63). The two names are the model's own (log entry 9); the machine answers both with
`IllegalCommand`. -/
inductive DecodeError where
  /-- `w[31:8] != 0`. -/
  | zeroFieldNotZero
  /-- `op` is 0x00 or one of 0x08 to 0xFF. -/
  | unassignedOpcode
  deriving DecidableEq, Repr

/-- The command an opcode selects (R61, R62). -/
def decodeOp (op : BitVec 8) : Option Instr :=
  if op = 0x01#8 then some .modinv
  else if op = 0x02#8 then some .mulv
  else if op = 0x03#8 then some .det
  else if op = 0x04#8 then some .adj
  else if op = 0x05#8 then some .inv
  else if op = 0x06#8 then some .mulm
  else if op = 0x07#8 then some .solve
  else none

/-- The decoder of R61, total on any 32-bit word. -/
def decode (w : Word) : Except DecodeError Instr :=
  if zeroField w ≠ 0 then .error .zeroFieldNotZero
  else match decodeOp (opField w) with
    | some i => .ok i
    | none => .error .unassignedOpcode

/-- The opcode of each command (R62). -/
def Instr.opcode : Instr → BitVec 8
  | .modinv => 0x01#8
  | .mulv => 0x02#8
  | .det => 0x03#8
  | .adj => 0x04#8
  | .inv => 0x05#8
  | .mulm => 0x06#8
  | .solve => 0x07#8

/-- The command word: the `zero` field above the opcode (R60, R62). -/
def encode (i : Instr) : Word := 0x000000#24 ++ i.opcode

/-- The decoder on bits numbered as spec/opcode_table.json numbers them: bit 0 is the least significant bit of the
one 32-bit command word; every bit from `nbits` on is 0. -/
def decodeTableWord (nbits w : Nat) : Option Instr :=
  if nbits ≤ 32 then
    match decode (BitVec.ofNat 32 (w % 2 ^ nbits)) with
    | .ok i => some i
    | .error _ => none
  else none

end Sys2Proof
end

