-- ==== Sys2Proof/Machine/State.lean ====
section
/-! DEFINITION. The state of the MIU and of its host port: the nineteen words of 10_state.md R34, the transactions the
host has still to issue and the responses given so far; the reasons a step can stop; the state after reset. -/

namespace Sys2Proof.Machine

/-- The registers of R20 (`CMD` holds nothing, R25), and, as the model's own fields, the host's side of the port.
There is no program counter (R24), no memory (20_memory.md R41) and no hidden state (R34). -/
structure State where
  /-- `STATUS`, 0x01: `ERR` 3:0, `NONE` 4, `RLEN` 7:5, zero 31:8 (R26). -/
  status : Word
  /-- `A`, 0x02: MODINV's operand. -/
  a : Word
  /-- `M`, 0x03: MODINV's modulus. -/
  m : Word
  /-- `MA0`, 0x04: row 0 column 0; SOLVE's p0. -/
  ma0 : Word
  /-- `MA1`, 0x05: row 0 column 1; SOLVE's p1. -/
  ma1 : Word
  /-- `MA2`, 0x06: row 1 column 0; SOLVE's p2. -/
  ma2 : Word
  /-- `MA3`, 0x07: row 1 column 1; SOLVE's p3. -/
  ma3 : Word
  /-- `MB0`, 0x08: row 0 column 0; SOLVE's c0. -/
  mb0 : Word
  /-- `MB1`, 0x09: row 0 column 1; SOLVE's c1. -/
  mb1 : Word
  /-- `MB2`, 0x0A: row 1 column 0; SOLVE's c2. -/
  mb2 : Word
  /-- `MB3`, 0x0B: row 1 column 1; SOLVE's c3. -/
  mb3 : Word
  /-- `V0`, 0x0C: the digraph's first element. -/
  v0 : Word
  /-- `V1`, 0x0D: the digraph's second element. -/
  v1 : Word
  /-- `NP`, 0x0E: the number of plaintext residues. -/
  np : Word
  /-- `NC`, 0x0F: the number of ciphertext residues. -/
  nc : Word
  /-- `R0`, 0x10: result word 0. -/
  r0 : Word
  /-- `R1`, 0x11: result word 1. -/
  r1 : Word
  /-- `R2`, 0x12: result word 2. -/
  r2 : Word
  /-- `R3`, 0x13: result word 3. -/
  r3 : Word
  /-- The model's own: the transactions the host has still to issue, the next one first (30_encoding.md R70, from
  the position of R24 on). DESIGN CHOICE, log entry 1, safe. -/
  pending : List Transaction
  /-- The model's own: the responses given so far, oldest first (R70). DESIGN CHOICE, log entry 3, safe. -/
  responses : List Response
  deriving DecidableEq, Repr

/-- The faults of the machine: there are none. Every error of 60_exceptions.md is a code in `STATUS` after which the
machine goes on (R143, R148), and `BusError` is a response (R149); there is no state from which a transaction is not
served (R148). Nobody raises a fault. -/
inductive Fault where
  deriving DecidableEq, Repr

/-- The refusals of the machine. -/
inductive Refusal where
  /-- An arm of `exec` whose instruction has no meaning yet. No arm answers it: all seven commands are modelled.
  Safe: the model stops where the hardware goes on. -/
  | notModelled (mnemonic : String)
  deriving DecidableEq, Repr

/-- Every outcome of the machine, over the value that a next outcome carries. -/
abbrev Result (σ : Type) := Host.Outcome σ Fault Refusal

/-- The state right after a `Reset` (R35, R160), with nothing issued and nothing answered yet: `M` is 26, every other
register 0. -/
def State.reset : State where
  status := 0x00000000#32
  a := 0x00000000#32
  m := Config.resetModulus
  ma0 := 0x00000000#32
  ma1 := 0x00000000#32
  ma2 := 0x00000000#32
  ma3 := 0x00000000#32
  mb0 := 0x00000000#32
  mb1 := 0x00000000#32
  mb2 := 0x00000000#32
  mb3 := 0x00000000#32
  v0 := 0x00000000#32
  v1 := 0x00000000#32
  np := 0x00000000#32
  nc := 0x00000000#32
  r0 := 0x00000000#32
  r1 := 0x00000000#32
  r2 := 0x00000000#32
  r3 := 0x00000000#32
  pending := []
  responses := []

end Sys2Proof.Machine
end

