-- ==== Sys2Proof/Machine/Arith.lean ====
section
/-! DEFINITION. The integer arithmetic of the commands: readings of a word (00_scope.md R7), the non-negative modulo
(R8), the modular inverse (R18, 40_modinv.md R81), 2×2 matrices (R13, R15 to R17). Everything is exact (R9): Lean's
`Int` does not wrap. -/

namespace Sys2Proof.Machine

/-- `sint(r)`: the signed reading, −2^31 to 2^31 − 1 (R7). -/
def sint (w : Word) : Int := w.toInt

/-- `uint(r)`: the unsigned reading, 0 to 2^32 − 1 (R7). -/
def uint (w : Word) : Int := w.toNat

/-- `word(n)`: the pattern whose unsigned reading is `n`, for 0 ≤ n < 2^32 (R7). -/
def word (n : Int) : Word := BitVec.ofInt 32 n

/-- `nmod(n, m)`: the non-negative modulo, for `m ≥ 1` (R8: Lean's `Int.emod`). -/
def nmod (n m : Int) : Int := n % m

/-- A Bézout coefficient by Euclid's algorithm: from remainders `r0`, `r1` with coefficients `t0`, `t1`, the coefficient
of the last non-zero remainder. The first argument bounds the rounds. -/
def bezout : Nat → Nat → Nat → Int → Int → Int
  | 0, _, _, t0, _ => t0
  | fuel + 1, r0, r1, t0, t1 =>
    if r1 = 0 then t0 else bezout fuel r1 (r0 % r1) t1 (t0 - (r0 / r1 : Nat) * t1)

/-- The only number in `[0, m)` that can be the inverse of `a'` modulo `m`. -/
def inverseCandidate (a' m : Int) : Int := nmod (bezout m.toNat m.toNat a'.toNat 0 1) m

/-- `mod_inverse(a, m)` for `m ≥ 1`: the `i` of R81, none when the set `S` of R81 is empty. R88 lets a model compute it
in any way that returns what R81's search returns: here Euclid's algorithm proposes the one possible `i` and R81's own
test decides. `searchInverse` is the search itself (log entry 5). -/
def modInverse (a m : Int) : Option Int :=
  let a' := nmod a m
  let i := inverseCandidate a' m
  if nmod (a' * i) m = 1 then some i else none

/-- The search as R81 writes it: the first candidate of `[1, m)` with `nmod(a' * i, m) = 1`. -/
def searchInverse (a m : Int) : Option Int :=
  ((List.range' 1 (m.toNat - 1)).map Int.ofNat).find? (fun i => nmod (nmod a m * i) m == 1)

/-- A 2×2 matrix `[[a, b], [c, d]]` (R13). -/
structure Matrix2 where
  a : Int
  b : Int
  c : Int
  d : Int
  deriving DecidableEq, Repr

/-- A digraph, an ordered pair (R12). -/
structure Digraph where
  x : Int
  y : Int
  deriving DecidableEq, Repr

/-- Each entry replaced by its Residue (41_matrix_ops.md R90). -/
def Matrix2.normalise (k : Matrix2) : Matrix2 where
  a := nmod k.a Config.modulus
  b := nmod k.b Config.modulus
  c := nmod k.c Config.modulus
  d := nmod k.d Config.modulus

/-- Each element replaced by its Residue (R90). -/
def Digraph.normalise (v : Digraph) : Digraph where
  x := nmod v.x Config.modulus
  y := nmod v.y Config.modulus

/-- `(a*d - b*c) mod 26` (R15, R94). -/
def Matrix2.determinant (k : Matrix2) : Int := nmod (k.a * k.d - k.b * k.c) Config.modulus

/-- `[[d, -b], [-c, a]]`, each entry reduced (R16, R96). -/
def Matrix2.adjugate (k : Matrix2) : Matrix2 where
  a := nmod k.d Config.modulus
  b := nmod (-k.b) Config.modulus
  c := nmod (-k.c) Config.modulus
  d := nmod k.a Config.modulus

/-- `inv_det * adjugate`, each entry reduced separately; none when the determinant has no inverse modulo 26 (R17,
R98 and R112's step 4). -/
def Matrix2.inverse (k : Matrix2) : Option Matrix2 :=
  match modInverse k.determinant Config.modulus with
  | none => none
  | some i => some
    { a := nmod (i * k.d) Config.modulus
      b := nmod (i * -k.b) Config.modulus
      c := nmod (i * -k.c) Config.modulus
      d := nmod (i * k.a) Config.modulus }

/-- The matrix product, the receiver on the left, each entry reduced (R100). -/
def Matrix2.mul (k l : Matrix2) : Matrix2 where
  a := nmod (k.a * l.a + k.b * l.c) Config.modulus
  b := nmod (k.a * l.b + k.b * l.d) Config.modulus
  c := nmod (k.c * l.a + k.d * l.c) Config.modulus
  d := nmod (k.c * l.b + k.d * l.d) Config.modulus

/-- The matrix times the digraph as a column, each component reduced (R92). -/
def Matrix2.mulVec (k : Matrix2) (v : Digraph) : Digraph where
  x := nmod (k.a * v.x + k.b * v.y) Config.modulus
  y := nmod (k.c * v.x + k.d * v.y) Config.modulus

end Sys2Proof.Machine
end

