-- ==== Sys2Proof/Machine/Flags.lean ====
section
/-! DEFINITION. The `STATUS` word: its fields (10_state.md R26), the error kinds and their codes (60_exceptions.md
R140), and the words each outcome writes (R27, R30, R31, R143). -/

namespace Sys2Proof.Machine

/-- The seven error kinds (R140). -/
inductive ErrorKind where
  /-- Raised by INV: the determinant has no inverse. -/
  | notInvertible
  /-- Raised by SOLVE: the equal counts are at least 4 and odd. -/
  | invalidLength
  /-- Raised by SOLVE: the counts differ. -/
  | lengthMismatch
  /-- Raised by SOLVE: the equal counts are below 4. -/
  | insufficientData
  /-- Raised by SOLVE: the plaintext matrix has no inverse. -/
  | nonInvertiblePlaintext
  /-- Raised by MODINV: the modulus is not positive. -/
  | badModulus
  /-- Raised by the decoder: the word is no command. -/
  | illegalCommand
  deriving DecidableEq, Repr

/-- The value of `STATUS.ERR` for each kind (R140). -/
def ErrorKind.code : ErrorKind → BitVec 4
  | .notInvertible => 1#4
  | .invalidLength => 2#4
  | .lengthMismatch => 3#4
  | .insufficientData => 4#4
  | .nonInvertiblePlaintext => 5#4
  | .badModulus => 6#4
  | .illegalCommand => 7#4

/-- The kind a code stands for; code 0 is no error, codes 8 to 15 are never produced (R140). -/
def ErrorKind.ofCode (c : BitVec 4) : Option ErrorKind :=
  if c = 1#4 then some .notInvertible
  else if c = 2#4 then some .invalidLength
  else if c = 3#4 then some .lengthMismatch
  else if c = 4#4 then some .insufficientData
  else if c = 5#4 then some .nonInvertiblePlaintext
  else if c = 6#4 then some .badModulus
  else if c = 7#4 then some .illegalCommand
  else none

/-- A `STATUS` word from its fields, bits 31:8 zero (R26). -/
def statusWord (rlen : BitVec 3) (noneBit : BitVec 1) (err : BitVec 4) : Word :=
  0x000000#24 ++ rlen ++ noneBit ++ err

/-- `STATUS[3:0]` (R26). -/
def statusErr (w : Word) : BitVec 4 := w.extractLsb' 0 4

/-- `STATUS[4]` (R26). -/
def statusNone (w : Word) : BitVec 1 := w.extractLsb' 4 1

/-- `STATUS[7:5]` (R26). -/
def statusRlen (w : Word) : BitVec 3 := w.extractLsb' 5 3

/-- `STATUS[31:8]`, reserved, always 0 (R26). -/
def statusReserved (w : Word) : BitVec 24 := w.extractLsb' 8 24

/-- `STATUS` after `return1`, `return2`, `return4`: 0x20, 0x40, 0x80 (R30). -/
def successStatus (rlen : BitVec 3) : Word := statusWord rlen 0#1 0#4

/-- `STATUS` after `return_none`: 0x10 (R31). -/
def noneStatus : Word := statusWord 0#3 1#1 0#4

/-- `STATUS` after `raise`: the code in bits 3:0, every other bit zero (R143). -/
def errorStatus (e : ErrorKind) : Word := statusWord 0#3 0#1 e.code

end Sys2Proof.Machine
end

