-- ==== Sys2Proof/Machine/Ops.lean ====
section
/-! DEFINITION. The operations on the registers: reading and writing one by name (20_memory.md R43, R44), the ways a
command ends (10_state.md R30, R31; `raise`, 60_exceptions.md R143), and what a `Reset` does (70_reset_and_hazards.md
R160). There is no return from an error (R147): `raise` leaves no handler state. There is no memory (R41). -/

namespace Sys2Proof.Machine

/-- What a host read of a register gives: its pattern, and 0 for `CMD` (R25, R43). -/
def State.readReg (s : State) : Reg → Word
  | .cmd => 0x00000000#32
  | .status => s.status
  | .a => s.a
  | .m => s.m
  | .ma0 => s.ma0
  | .ma1 => s.ma1
  | .ma2 => s.ma2
  | .ma3 => s.ma3
  | .mb0 => s.mb0
  | .mb1 => s.mb1
  | .mb2 => s.mb2
  | .mb3 => s.mb3
  | .v0 => s.v0
  | .v1 => s.v1
  | .np => s.np
  | .nc => s.nc
  | .r0 => s.r0
  | .r1 => s.r1
  | .r2 => s.r2
  | .r3 => s.r3

/-- What a host write does to the registers: an operand register takes the raw pattern (R21, R44), `STATUS` and
`R0..R3` ignore it (R46). A write to `CMD` stores nothing (R25); what it runs is the port's (R61). -/
def State.writeReg (s : State) (v : Word) : Reg → State
  | .cmd | .status | .r0 | .r1 | .r2 | .r3 => s
  | .a => { s with a := v }
  | .m => { s with m := v }
  | .ma0 => { s with ma0 := v }
  | .ma1 => { s with ma1 := v }
  | .ma2 => { s with ma2 := v }
  | .ma3 => { s with ma3 := v }
  | .mb0 => { s with mb0 := v }
  | .mb1 => { s with mb1 := v }
  | .mb2 => { s with mb2 := v }
  | .mb3 => { s with mb3 := v }
  | .v0 => { s with v0 := v }
  | .v1 => { s with v1 := v }
  | .np => { s with np := v }
  | .nc => { s with nc := v }

/-- The whole of what a command writes: the four result registers and `STATUS`, at once (R29). -/
def State.deliver (s : State) (x0 x1 x2 x3 st : Word) : State :=
  { s with r0 := x0, r1 := x1, r2 := x2, r3 := x3, status := st }

/-- `return1(n0)` (R30). -/
def State.return1 (s : State) (n0 : Int) : State :=
  s.deliver (word n0) 0x00000000#32 0x00000000#32 0x00000000#32 (successStatus 1#3)

/-- `return2(n0, n1)`, a digraph result (R30). -/
def State.return2 (s : State) (v : Digraph) : State :=
  s.deliver (word v.x) (word v.y) 0x00000000#32 0x00000000#32 (successStatus 2#3)

/-- `return4(n00, n01, n10, n11)`, a matrix result, row-major (R30). -/
def State.return4 (s : State) (k : Matrix2) : State :=
  s.deliver (word k.a) (word k.b) (word k.c) (word k.d) (successStatus 4#3)

/-- `return_none`, used by MODINV only (R31). -/
def State.returnNone (s : State) : State :=
  s.deliver 0x00000000#32 0x00000000#32 0x00000000#32 0x00000000#32 noneStatus

/-- `raise e`, the one operation by which every error is taken: the results zeroed, `STATUS` the code, nothing else
(R143, R146). -/
def State.raise (s : State) (e : ErrorKind) : State :=
  s.deliver 0x00000000#32 0x00000000#32 0x00000000#32 0x00000000#32 (errorStatus e)

/-- `Reset`: every register at its reset value, whatever it held (R160, R161); the host's side is not the MIU's. -/
def State.resetRegisters (s : State) : State :=
  { State.reset with pending := s.pending, responses := s.responses }

/-- The host's remaining transactions replaced (the model's own field, log entry 1). -/
def State.withPending (s : State) (ts : List Transaction) : State := { s with pending := ts }

/-- The host's record of responses replaced (the model's own field, log entry 3). -/
def State.withResponses (s : State) (rs : List Response) : State := { s with responses := rs }

/-- The outcome's state handed on, a stop kept as it is. -/
def andThen {σ τ : Type} (o : Result σ) (f : σ → Result τ) : Result τ :=
  match o with
  | .next s => f s
  | .fault r => .fault r
  | .refused r => .refused r

end Sys2Proof.Machine
end

