-- ==== Sys2Proof/Machine/Operands.lean ====
section
/-! DEFINITION. How commands read their operand registers (10_state.md R23, 41_matrix_ops.md R90, 42_solver.md
R111). -/

namespace Sys2Proof.Machine

/-- `n(X) = nmod(sint(reg[X]), 26)`: the Residue a matrix command uses in place of a register (R90). -/
def residueOf (w : Word) : Int := nmod (sint w) Config.modulus

/-- The operand matrix MA, row-major (R13, R90). -/
def State.matrixMA (s : State) : Matrix2 where
  a := residueOf s.ma0
  b := residueOf s.ma1
  c := residueOf s.ma2
  d := residueOf s.ma3

/-- The operand matrix MB, row-major (R13, R90). -/
def State.matrixMB (s : State) : Matrix2 where
  a := residueOf s.mb0
  b := residueOf s.mb1
  c := residueOf s.mb2
  d := residueOf s.mb3

/-- The operand digraph (V0, V1) (R12, R90). -/
def State.digraphV (s : State) : Digraph where
  x := residueOf s.v0
  y := residueOf s.v1

/-- SOLVE's plaintext matrix `P = [[p0,p2],[p1,p3]]`: MA in sequence order, each digraph a column (R111). -/
def State.plaintextP (s : State) : Matrix2 where
  a := residueOf s.ma0
  b := residueOf s.ma2
  c := residueOf s.ma1
  d := residueOf s.ma3

/-- SOLVE's ciphertext matrix `C = [[c0,c2],[c1,c3]]` (R111). -/
def State.ciphertextC (s : State) : Matrix2 where
  a := residueOf s.mb0
  b := residueOf s.mb2
  c := residueOf s.mb1
  d := residueOf s.mb3

end Sys2Proof.Machine
end

