-- ==== Sys2Proof/Machine/MatrixOps.lean ====
section
/-! DEFINITION. The sub-block hill_matrix_ops: MULV, DET, ADJ, INV, MULM (41_matrix_ops.md). All work modulo the constant
26; none reads the register `M` (R98, 90_conflicts.md C3). -/

namespace Sys2Proof.Machine

/-- MULV (R92): never fails. -/
def execMulv (s : State) : Result State := .next (s.return2 (s.matrixMA.mulVec s.digraphV))

/-- DET (R94): never fails. -/
def execDet (s : State) : Result State := .next (s.return1 s.matrixMA.determinant)

/-- ADJ (R96): never fails. -/
def execAdj (s : State) : Result State := .next (s.return4 s.matrixMA.adjugate)

/-- INV (R98): `NotInvertible` when the determinant has no inverse modulo 26. -/
def execInv (s : State) : Result State :=
  match s.matrixMA.inverse with
  | none => .next (s.raise .notInvertible)
  | some q => .next (s.return4 q)

/-- MULM (R100): MA on the left; never fails. -/
def execMulm (s : State) : Result State := .next (s.return4 (s.matrixMA.mul s.matrixMB))

end Sys2Proof.Machine
end

