-- ==== Sys2Proof/Machine/Modinv.lean ====
section
/-! DEFINITION. The sub-block modular_inverse_unit: MODINV (40_modinv.md). -/

namespace Sys2Proof.Machine

/-- MODINV (R81): `BadModulus` before `a` is looked at (R85), then the inverse, or none (R84). -/
def execModinv (s : State) : Result State :=
  let a := sint s.a
  let m := sint s.m
  if m ≤ 0 then .next (s.raise .badModulus)
  else match modInverse a m with
    | none => .next s.returnNone
    | some i => .next (s.return1 i)

end Sys2Proof.Machine
end

