-- ==== Sys2Proof/Machine/Solver.lean ====
section
/-! DEFINITION. The sub-block linear_solver_gf26: SOLVE (42_solver.md). The arithmetic is in the integers modulo 26, a
ring, not a field (90_conflicts.md C4). -/

namespace Sys2Proof.Machine

/-- SOLVE (R112): the three length checks in the document's order (R113), then invertibility, then `K = C × inv(P)`. -/
def execSolve (s : State) : Result State :=
  let np := uint s.np
  let nc := uint s.nc
  if np ≠ nc then .next (s.raise .lengthMismatch)
  else if np < 4 then .next (s.raise .insufficientData)
  else if np % 2 = 1 then .next (s.raise .invalidLength)
  else match s.plaintextP.inverse with
    | none => .next (s.raise .nonInvertiblePlaintext)
    | some q => .next (s.return4 (s.ciphertextC.mul q))

end Sys2Proof.Machine
end

