-- ==== Sys2Proof/Machine/Dispatch.lean ====
section
/-! DEFINITION. The meaning of each command, one arm per row of spec/opcode_table.json (30_encoding.md R61). -/

namespace Sys2Proof.Machine

/-- What a command does to the state (R61). -/
def exec (i : Instr) (s : State) : Host.Outcome State Fault Refusal :=
  match i with
  | .modinv => Sys2Proof.Machine.execModinv s
  | .mulv => Sys2Proof.Machine.execMulv s
  | .det => Sys2Proof.Machine.execDet s
  | .adj => Sys2Proof.Machine.execAdj s
  | .inv => Sys2Proof.Machine.execInv s
  | .mulm => Sys2Proof.Machine.execMulm s
  | .solve => Sys2Proof.Machine.execSolve s

end Sys2Proof.Machine
end

