-- ==== Sys2Proof/Machine/Port.lean ====
section
/-! DEFINITION. The host port (20_memory.md): serving one transaction, a list of them, and how a step of the machine takes
the host's next one. -/

namespace Sys2Proof.Machine

/-- A command word written to `CMD` (30_encoding.md R61): decoded, and run or answered with `IllegalCommand` (R63). -/
def runCommandWord (w : Word) (s : State) : Result State :=
  match decode w with
  | .ok i => exec i s
  | .error _ => .next (s.raise .illegalCommand)

/-- The answer to `RegRead(i)` (R43). -/
def State.readResponse (s : State) (i : Index) : Response :=
  match Reg.ofIndex i with
  | none => .busError
  | some r => .value (s.readReg r)

/-- `RegWrite(i, v)` (R44): `BusError` at an unmapped index, a command at `CMD`, else a register write; the write
responds `Ok` whatever a command's outcome (R149). -/
def serveWrite (i : Index) (v : Word) (s : State) : Result (State × Option Response) :=
  match Reg.ofIndex i with
  | none => .next (s, some .busError)
  | some .cmd => andThen (runCommandWord v s) fun t => .next (t, some .ok)
  | some r => .next (s.writeReg v r, some .ok)

/-- One transaction: the state and the response it leaves, none for a `Reset` (R42, R160). -/
def serve (t : Transaction) (s : State) : Result (State × Option Response) :=
  match t with
  | .regRead i => .next (s, some (s.readResponse i))
  | .regWrite i v => serveWrite i v s
  | .reset => .next (s.resetRegisters, none)

/-- A list of transactions: the end state and the responses (R53, R70). -/
def serveAll : List Transaction → State → Result (State × List Response)
  | [], s => .next (s, [])
  | t :: ts, s =>
    andThen (serve t s) fun p => andThen (serveAll ts p.1) fun q => .next (q.1, p.2.toList ++ q.2)

/-- The port's answer added to the host's record. -/
def State.record (s : State) (r : Option Response) : State := s.withResponses (s.responses ++ r.toList)

/-- A step of the machine: the host's next pending transaction is served and its response recorded; with nothing pending
the MIU is idle and holds its registers (R24, R155; log entry 2). -/
def takeTransaction (s : State) : Result State :=
  match s.pending with
  | [] => .next s
  | t :: ts => andThen (serve t (s.withPending ts)) fun p => .next (p.1.record p.2)

/-- The state in which the host issues a transaction before all it still has to issue. -/
def State.issueFirst (s : State) (t : Transaction) : State := s.withPending (t :: s.pending)

/-- The write that issues a command whose bits are `w`, every bit from `nbits` on zero (R25). -/
def commandWrite (nbits w : Nat) : Transaction :=
  .regWrite Config.cmdIndex (BitVec.ofNat 32 (w % 2 ^ nbits))

end Sys2Proof.Machine
end

