-- ==== Sys2Proof/Machine/Step.lean ====
section
/-! DEFINITION. One step of the machine, and the placing of a command word where the next step takes it. -/

namespace Sys2Proof.Machine

/-- One step: the host's next transaction (20_memory.md R42, R47). -/
def step (s : State) : Host.Outcome State Fault Refusal := takeTransaction s

/-- The state whose next step runs the command with bits `w`: the host's next transaction is the write of that word to
`CMD` (10_state.md R24, R25; log entry 1). -/
def State.withFetchWord (s : State) (nbits w : Nat) : State := s.issueFirst (commandWrite nbits w)

end Sys2Proof.Machine
end

