-- ==== Sys2Proof/Machine/Bus.lean ====
section
/-! DEFINITION. The MIU on a byte-addressed bus (20_memory.md R48): register `i` at byte offset `4·i`, its bytes on the
lanes that the OPEN parameter `BUS_BYTE_ORDER` gives. Accesses stay whole-word (R49), so no other rule sees this. -/

namespace Sys2Proof.Machine

/-- The byte offset of register `i` from the unit's base (R48). -/
def busOffset (i : Index) : Nat := 4 * i.toNat

/-- The register index at a byte offset: an offset inside a word, or beyond the 32 indices, names none (R48, R49). -/
def busIndex (offset : Nat) : Option Index :=
  if offset % 4 = 0 ∧ offset / 4 < 32 then some (BitVec.ofNat 5 (offset / 4)) else none

/-- Byte `k` of a word, bits `8k+7` to `8k`. -/
def wordByte (w : Word) (k : Fin 4) : Byte := w.extractLsb' (8 * k.val) 8

/-- What lane `l` carries when a word is moved in the byte order `order`. -/
def busLane (order : Equiv.Perm (Fin 4)) (w : Word) (l : Fin 4) : Byte := wordByte w (order.symm l)

/-- The word that four lanes carry in the byte order `order`. -/
def busWord (order : Equiv.Perm (Fin 4)) (lane : Fin 4 → Byte) : Word :=
  lane (order 3) ++ lane (order 2) ++ lane (order 1) ++ lane (order 0)

/-- A whole-word bus read: the lanes of the port's answer, none for a `BusError` or an offset that names no register. -/
def busRead (offset : Nat) (s : State) : Option (Fin 4 → Byte) :=
  match busIndex offset with
  | none => none
  | some i => match s.readResponse i with
    | .value v => some (busLane Config.busByteOrder v)
    | .ok | .busError => none

/-- The transaction of a whole-word bus write. -/
def busWrite (offset : Nat) (lane : Fin 4 → Byte) : Option Transaction :=
  match busIndex offset with
  | none => none
  | some i => some (.regWrite i (busWord Config.busByteOrder lane))

end Sys2Proof.Machine
end

