-- ==== Sys2Proof/Machine/Codec.lean ====
section
/-! DEFINITION. The host's letter codec (45_host_software.md R120 to R122). Host software, not the MIU (00_scope.md R4).
Text is a list of characters. -/

namespace Sys2Proof.Machine

/-- A Residue modulo 26 (R11). -/
abbrev Residue := Fin 26

/-- The 0-based position of a letter, in either case; none for any other character (R120). A non-ASCII letter is no letter
here, so the bare codec drops it, where 93_implementation_defined.md U8 neither guarantees it dropped nor mapped. DESIGN
CHOICE, log entry 19, unsafe for claims about such text. -/
def letterResidue (c : Char) : Option Residue :=
  if 65 ≤ c.toNat ∧ c.toNat ≤ 90 then some (Fin.ofNat 26 (c.toNat - 65))
  else if 97 ≤ c.toNat ∧ c.toNat ≤ 122 then some (Fin.ofNat 26 (c.toNat - 97))
  else none

/-- ASCII text, the only text the host rules take (93_implementation_defined.md U8). -/
def isAscii (text : List Char) : Bool := text.all fun c => decide (c.toNat < 128)

/-- `text_to_residues` (R120): other characters dropped, order kept. -/
def textToResidues (text : List Char) : List Residue := text.filterMap letterResidue

/-- The uppercase letter of a Residue (R121). -/
def residueLetter (r : Residue) : Char := Char.ofNat (65 + r.val)

/-- `residues_to_text` (R121). -/
def residuesToText (rs : List Residue) : List Char := rs.map residueLetter

/-- The padding Residue, letter X (R123). -/
def padResidue : Residue := 23

/-- A padding Residue appended when the count is odd (R123, step 2). -/
def padResidues (rs : List Residue) : List Residue := if rs.length % 2 = 1 then rs ++ [padResidue] else rs

/-- Consecutive, non-overlapping digraphs (R123, step 3). -/
def digraphs : List Residue → List (Residue × Residue)
  | x :: y :: rs => (x, y) :: digraphs rs
  | [_] => []
  | [] => []

end Sys2Proof.Machine
end

