-- ==== Sys2Proof/Machine/Script.lean ====
section
/-! DEFINITION. The host script statements of 30_encoding.md R68 and R69, their expansion into transactions, and the
triple encoding of a program (R70). -/

namespace Sys2Proof.Machine

/-- `<reg>` of R68: a register's name or a numeric index. -/
inductive RegRef where
  | name (r : Reg)
  | index (i : Index)
  deriving DecidableEq, Repr

/-- The word index a reference stands for (R68). -/
def RegRef.toIndex : RegRef → Index
  | .name r => r.index
  | .index i => i

/-- A script statement (R68, R69). -/
inductive Stmt where
  /-- `WR <reg>, <int>` -/
  | wr (r : RegRef) (n : Int)
  /-- `RD <reg>` -/
  | rd (r : RegRef)
  /-- `RD <reg> == <int>` -/
  | rdEq (r : RegRef) (n : Int)
  /-- `RESET` -/
  | reset
  /-- `MODINV` to `SOLVE` -/
  | command (i : Instr)
  /-- `LDMA a, b, c, d` -/
  | ldma (a b c d : Int)
  /-- `LDMB a, b, c, d` -/
  | ldmb (a b c d : Int)
  /-- `LDV v0, v1` -/
  | ldv (v0 v1 : Int)
  /-- `LDLEN np, nc` -/
  | ldlen (np nc : Int)
  /-- `EXPECT status, r0, r1, r2, r3` -/
  | expect (status r0 r1 r2 r3 : Int)
  deriving DecidableEq, Repr

/-- `word32(n) = word(n mod 2^32)` (R68). -/
def word32 (n : Int) : Word := BitVec.ofInt 32 n

/-- `<int>` is in −2^31 .. 2^32 − 1 (R68). -/
def scriptInt (n : Int) : Bool := decide (-2 ^ 31 ≤ n) && decide (n < 2 ^ 32)

/-- A statement's integers are all in the range of R68. -/
def Stmt.wellFormed : Stmt → Bool
  | .wr _ n | .rdEq _ n => scriptInt n
  | .rd _ | .reset | .command _ => true
  | .ldma a b c d | .ldmb a b c d => scriptInt a && scriptInt b && scriptInt c && scriptInt d
  | .ldv v0 v1 => scriptInt v0 && scriptInt v1
  | .ldlen np nc => scriptInt np && scriptInt nc
  | .expect st r0 r1 r2 r3 => scriptInt st && scriptInt r0 && scriptInt r1 && scriptInt r2 && scriptInt r3

/-- `WR` of a named register. -/
def writeTo (r : Reg) (v : Word) : Transaction := .regWrite r.index v

/-- `RD` of a named register. -/
def readFrom (r : Reg) : Transaction := .regRead r.index

/-- The `CMD` write that issues a command (R69). -/
def issue (i : Instr) : Transaction := .regWrite Config.cmdIndex (encode i)

/-- A transaction of a script with the value its response is asserted to carry, if any (R68). -/
abbrev CheckedTransaction := Transaction × Option Word

/-- The transactions a statement stands for, in the order written, with their assertions (R68, R69). What an `<int>` of
`RD .. ==` or `EXPECT` is compared as, R68 does not say: its pattern `word32`, as `WR` would store it. DESIGN CHOICE, log
entry 17, unsafe. -/
def Stmt.expand : Stmt → List CheckedTransaction
  | .wr r n => [(.regWrite r.toIndex (word32 n), none)]
  | .rd r => [(.regRead r.toIndex, none)]
  | .rdEq r n => [(.regRead r.toIndex, some (word32 n))]
  | .reset => [(.reset, none)]
  | .command i => [(issue i, none)]
  | .ldma a b c d =>
    [(writeTo .ma0 (word32 a), none), (writeTo .ma1 (word32 b), none),
     (writeTo .ma2 (word32 c), none), (writeTo .ma3 (word32 d), none)]
  | .ldmb a b c d =>
    [(writeTo .mb0 (word32 a), none), (writeTo .mb1 (word32 b), none),
     (writeTo .mb2 (word32 c), none), (writeTo .mb3 (word32 d), none)]
  | .ldv v0 v1 => [(writeTo .v0 (word32 v0), none), (writeTo .v1 (word32 v1), none)]
  | .ldlen np nc => [(writeTo .np (word32 np), none), (writeTo .nc (word32 nc), none)]
  | .expect st r0 r1 r2 r3 =>
    [(readFrom .status, some (word32 st)), (readFrom .r0, some (word32 r0)), (readFrom .r1, some (word32 r1)),
     (readFrom .r2, some (word32 r2)), (readFrom .r3, some (word32 r3))]

/-- A script's program (R70): its statements' transactions, one after another. -/
def scriptProgram (script : List Stmt) : List Transaction := (script.flatMap Stmt.expand).map Prod.fst

/-- Whether a response carries the value asserted of it, as a pattern (log entry 17): a `BusError` does not. Where nothing
is asserted, every response passes. -/
def assertionHolds (expected : Option Word) (r : Option Response) : Bool :=
  match expected with
  | none => true
  | some v => r == some (.value v)

/-- Serves the transactions in order; the end state, and whether every assertion held. -/
def runChecked : List CheckedTransaction → State → Result (State × Bool)
  | [], s => .next (s, true)
  | (t, expected) :: ts, s =>
    andThen (serve t s) fun p => andThen (runChecked ts p.1) fun q =>
      .next (q.1, assertionHolds expected p.2 && q.2)

/-- A script run from a state: the end state, and whether every `RD .. ==` and `EXPECT` held (R68, R69). -/
def runScript (script : List Stmt) (s : State) : Result (State × Bool) := runChecked (script.flatMap Stmt.expand) s

/-- The kinds of R70: `R`, `W`, `X`. -/
inductive Kind where
  | read
  | write
  | reset
  deriving DecidableEq, Repr

/-- The triple `(kind, index, value)` of R70. -/
structure Triple where
  kind : Kind
  index : Index
  value : Word
  deriving DecidableEq, Repr

/-- The triple of a transaction: index 0 for `X`, value 0 for `R` and `X` (R70). -/
def Transaction.toTriple : Transaction → Triple
  | .regRead i => ⟨.read, i, 0x00000000#32⟩
  | .regWrite i v => ⟨.write, i, v⟩
  | .reset => ⟨.reset, 0x00#5, 0x00000000#32⟩

/-- The transaction a triple encodes, none when a field R70 fixes at 0 is not 0. -/
def Triple.toTransaction : Triple → Option Transaction
  | ⟨.read, i, v⟩ => if v = 0x00000000#32 then some (.regRead i) else none
  | ⟨.write, i, v⟩ => some (.regWrite i v)
  | ⟨.reset, i, v⟩ => if i = 0x00#5 ∧ v = 0x00000000#32 then some .reset else none

/-- A program's encoding (R70). -/
def encodeProgram (ts : List Transaction) : List Triple := ts.map Transaction.toTriple

/-- The program a list of triples encodes, none when one of them encodes no transaction. -/
def decodeProgram (ts : List Triple) : Option (List Transaction) := ts.mapM Triple.toTransaction

end Sys2Proof.Machine
end

