-- ==== Sys2Proof/Machine/HostSoftware.lean ====
section
/-! DEFINITION. The host software that drives the MIU (45_host_software.md R123 to R131): encrypt, decrypt, crack and
mod_inverse as sequences of transactions. Not the MIU (00_scope.md R4); every value comes from the port's responses. -/

namespace Sys2Proof.Machine

/-- What a host function reports instead of a value. -/
inductive HostError where
  /-- One of the document's error kinds (R130): read from `STATUS`, or `InvalidLength` found by `decrypt` itself
  (R125). -/
  | reported (e : ErrorKind)
  /-- A text with a character outside ASCII: the host rules say nothing of it (U8). -/
  | notAscii
  /-- A modulus that does not fit the register `M` (R129, U2). -/
  | modulusTooWide
  deriving DecidableEq, Repr

/-- A host function's answer with the state it leaves the MIU in. -/
abbrev HostResult (α : Type) := Result (State × Except HostError α)

/-- `n` fits a signed 32-bit register (R7). -/
def fitsRegister (n : Int) : Bool := decide (-2 ^ 31 ≤ n) && decide (n < 2 ^ 31)

/-- The pattern the host writes for an integer of which only the class modulo `m` matters: reduced first when it does
not fit (10_state.md R23). -/
def operandWord (n m : Int) : Word := if fitsRegister n then word32 n else word32 (nmod n m)

/-- The pattern of a Residue (R11). -/
def residueWord (r : Residue) : Word := BitVec.ofNat 32 r.val

/-- The Residue a result register holds (R22). -/
def wordResidue (w : Word) : Residue := Fin.ofNat 26 w.toNat

/-- `LDMA` of a key: any integers, reduced by the MIU (R131). -/
def loadKey (k : Matrix2) : List Transaction :=
  [writeTo .ma0 (operandWord k.a Config.modulus), writeTo .ma1 (operandWord k.b Config.modulus),
   writeTo .ma2 (operandWord k.c Config.modulus), writeTo .ma3 (operandWord k.d Config.modulus)]

/-- `RD R0 ; RD R1 ; RD R2 ; RD R3`. -/
def readResults : List Transaction := [readFrom .r0, readFrom .r1, readFrom .r2, readFrom .r3]

/-- The values that responses carry, in order. -/
def responseValues (rs : List Response) : List Word :=
  rs.filterMap fun r => match r with
    | .value v => some v
    | .ok | .busError => none

/-- The host's `k`-th read value. -/
def readValue (rs : List Response) (k : Nat) : Word := (responseValues rs).getD k 0x00000000#32

/-- The matrix of the four values read from value `k` on. -/
def readMatrix (rs : List Response) (k : Nat) : Matrix2 where
  a := uint (readValue rs k)
  b := uint (readValue rs (k + 1))
  c := uint (readValue rs (k + 2))
  d := uint (readValue rs (k + 3))

/-- `LDV`, `MULV` and the reads for one digraph; encryption also reads `STATUS`, after `MULV` and before the results
(R124, R126). -/
def mulvTransactions (readsStatus : Bool) (v : Residue × Residue) : List Transaction :=
  [writeTo .v0 (residueWord v.1), writeTo .v1 (residueWord v.2), issue .mulv] ++
    (if readsStatus then [readFrom .status] else []) ++ [readFrom .r0, readFrom .r1]

/-- The host's loop over digraphs, with the matrix already in MA (R124, R126): the Residues read, in order. -/
def mulvLoop (readsStatus : Bool) : List (Residue × Residue) → State → Result (State × List Residue)
  | [], s => .next (s, [])
  | v :: vs, s =>
    andThen (serveAll (mulvTransactions readsStatus v) s) fun p =>
      andThen (mulvLoop readsStatus vs p.1) fun q =>
        let k := if readsStatus then 1 else 0
        .next (q.1, wordResidue (readValue p.2 k) :: wordResidue (readValue p.2 (k + 1)) :: q.2)

/-- `hill_encrypt` (R123, R124): no key is tested; for no letters nothing is issued. -/
def hillEncrypt (text : List Char) (key : Matrix2) (s : State) : HostResult (List Char) :=
  if isAscii text = false then .next (s, .error .notAscii)
  else match digraphs (padResidues (textToResidues text)) with
    | [] => .next (s, .ok [])
    | v :: vs =>
      andThen (serveAll (loadKey key) s) fun p => andThen (mulvLoop true (v :: vs) p.1) fun q =>
        .next (q.1, .ok (residuesToText q.2))

/-- The text part of `decrypt`, once the inverse is known (R125 steps 2 to 4, R126). -/
def decryptText (text : List Char) (inverse : Matrix2) (s : State) : HostResult (List Char) :=
  if isAscii text = false then .next (s, .error .notAscii)
  else if (textToResidues text).length % 2 = 1 then .next (s, .error (.reported .invalidLength))
  else andThen (serveAll (loadKey inverse) s) fun p =>
    andThen (mulvLoop false (digraphs (textToResidues text)) p.1) fun q => .next (q.1, .ok (residuesToText q.2))

/-- `hill_decrypt` (R125, R126): the key is checked before any text processing. -/
def hillDecrypt (text : List Char) (key : Matrix2) (s : State) : HostResult (List Char) :=
  andThen (serveAll (loadKey key ++ [issue .inv, readFrom .status]) s) fun p =>
    match ErrorKind.ofCode (statusErr (readValue p.2 0)) with
    | some e => .next (p.1, .error (.reported e))
    | none => andThen (serveAll readResults p.1) fun q => decryptText text (readMatrix q.2 0) q.1

/-- A count below 6 on the same side of 4 and of the same parity: a count below 4 itself, else U11's `4 + (len mod 2)`. -/
def shortCount (n : Nat) : Nat := if n < 4 then n else 4 + n % 2

/-- The counts the host writes for two texts: the true ones where both fit, else two values with the same equality, the
same "≥ 4" and the same parity, as U11 asks (theorem hostCounts_spec): short counts, the second two larger where that alone
keeps unequal lengths unequal. Which of the values U11 admits is the model's choice (DESIGN CHOICE, log entry 12, unsafe for what
`NP` and `NC` then hold). -/
def hostCounts (np nc : Nat) : Word × Word :=
  if np < 2 ^ 32 ∧ nc < 2 ^ 32 then (BitVec.ofNat 32 np, BitVec.ofNat 32 nc)
  else if np ≠ nc ∧ shortCount np = shortCount nc then
    (BitVec.ofNat 32 (shortCount np), BitVec.ofNat 32 (shortCount nc + 2))
  else (BitVec.ofNat 32 (shortCount np), BitVec.ofNat 32 (shortCount nc))

/-- The writes of the first four Residues, as many as there are (R128). -/
def loadSequence (regs : List Reg) (rs : List Residue) : List Transaction :=
  List.zipWith (fun r x => writeTo r (residueWord x)) regs rs

/-- The transactions of `hill_crack` (R128). -/
def crackTransactions (p c : List Residue) : List Transaction :=
  [writeTo .np (hostCounts p.length c.length).1, writeTo .nc (hostCounts p.length c.length).2] ++
    loadSequence [.ma0, .ma1, .ma2, .ma3] p ++ loadSequence [.mb0, .mb1, .mb2, .mb3] c ++
    [issue .solve, readFrom .status] ++ readResults

/-- `hill_crack` (R128): the four failures are the MIU's. -/
def hillCrack (plaintext ciphertext : List Char) (s : State) : HostResult Matrix2 :=
  if isAscii plaintext = false ∨ isAscii ciphertext = false then .next (s, .error .notAscii)
  else andThen (serveAll (crackTransactions (textToResidues plaintext) (textToResidues ciphertext)) s) fun p =>
    match ErrorKind.ofCode (statusErr (readValue p.2 0)) with
    | some e => .next (p.1, .error (.reported e))
    | none => .next (p.1, .ok (readMatrix p.2 1))

/-- `mod_inverse` (R129): none is a value; a modulus that does not fit `M` cannot be passed. For `m ≤ 0` an `a` that does not
fit `A` has no residue modulo `m`, and R129 does not say what is written: here `word32 a`, `a` modulo 2^32. DESIGN CHOICE,
log entry 18, unsafe for what `A` then holds; the outcome is `BadModulus` whatever it is (40_modinv.md R85). -/
def hostModInverse (a m : Int) (s : State) : HostResult (Option Int) :=
  if fitsRegister m = false then .next (s, .error .modulusTooWide)
  else andThen (serveAll [writeTo .a (if 1 ≤ m then operandWord a m else word32 a), writeTo .m (word32 m),
      issue .modinv, readFrom .status, readFrom .r0] s) fun p =>
    match ErrorKind.ofCode (statusErr (readValue p.2 0)) with
    | some e => .next (p.1, .error (.reported e))
    | none =>
      if statusNone (readValue p.2 0) = 1#1 then .next (p.1, .ok none)
      else .next (p.1, .ok (some (uint (readValue p.2 1))))

end Sys2Proof.Machine
end

