-- ==== Sys2Proof/Machine/Units.lean ====
section
/-! DEFINITION. Several MIUs (60_exceptions.md R153): a product of independent states, each with its own port and its own
stream of transactions; there is no signal between them. -/

namespace Sys2Proof.Machine

/-- One step of unit `k` among several (R153): the others keep their states; there is no unit beyond the list. -/
def stepUnit (k : Nat) (units : List State) : Result (List State) :=
  match units[k]? with
  | none => .next units
  | some s => andThen (step s) fun t => .next (units.set k t)

end Sys2Proof.Machine
end

