-- ==== Sys2Proof/Safety.lean ====
section
/-! DEFINITION. What claims about every run are stated in: the legal values of `STATUS` (10_state.md R27), and the
invariant that ties the result registers to it (R22, R27, R30, R31, R143). -/

namespace Sys2Proof.Machine

/-- The twelve values that can be read from `STATUS` (R27). -/
def legalStatuses : List Word :=
  [0x00000000#32, 0x00000020#32, 0x00000040#32, 0x00000080#32, 0x00000010#32, 0x00000001#32,
   0x00000002#32, 0x00000003#32, 0x00000004#32, 0x00000005#32, 0x00000006#32, 0x00000007#32]

/-- A Residue modulo 26 held in a word: 0 to 25 (R11). -/
abbrev isResidueWord (w : Word) : Prop := w.toNat < 26

/-- What the result registers hold for each kind of `STATUS`: one word below 2^31 − 1 (MODINV, DET), a digraph of
Residues, a matrix of Residues, and zeros where there is no result (R22, R30, R31, R143, R166). -/
abbrev State.resultsMatch (s : State) : Prop :=
  if s.status = 0x00000020#32 then s.r0.toNat ≤ 2 ^ 31 - 2 ∧ s.r1 = 0 ∧ s.r2 = 0 ∧ s.r3 = 0
  else if s.status = 0x00000040#32 then isResidueWord s.r0 ∧ isResidueWord s.r1 ∧ s.r2 = 0 ∧ s.r3 = 0
  else if s.status = 0x00000080#32 then
    isResidueWord s.r0 ∧ isResidueWord s.r1 ∧ isResidueWord s.r2 ∧ isResidueWord s.r3
  else s.r0 = 0 ∧ s.r1 = 0 ∧ s.r2 = 0 ∧ s.r3 = 0

/-- The invariant of the MIU: a legal `STATUS`, and result registers that match it. -/
abbrev State.Inv (s : State) : Prop := s.status ∈ legalStatuses ∧ s.resultsMatch

/-- The fourteen operand registers, by R20's order. -/
def operandRegs : List Reg :=
  [.a, .m, .ma0, .ma1, .ma2, .ma3, .mb0, .mb1, .mb2, .mb3, .v0, .v1, .np, .nc]

/-- The operand registers each command reads (30_encoding.md R65). -/
def Reg.readBy : Instr → List Reg
  | .modinv => [.a, .m]
  | .mulv => [.ma0, .ma1, .ma2, .ma3, .v0, .v1]
  | .det => [.ma0, .ma1, .ma2, .ma3]
  | .adj => [.ma0, .ma1, .ma2, .ma3]
  | .inv => [.ma0, .ma1, .ma2, .ma3]
  | .mulm => [.ma0, .ma1, .ma2, .ma3, .mb0, .mb1, .mb2, .mb3]
  | .solve => [.ma0, .ma1, .ma2, .ma3, .mb0, .mb1, .mb2, .mb3, .np, .nc]

/-- The errors each command can raise (60_exceptions.md R141). -/
def ErrorKind.raisedBy : Instr → List ErrorKind
  | .modinv => [.badModulus]
  | .mulv | .det | .adj | .mulm => []
  | .inv => [.notInvertible]
  | .solve => [.lengthMismatch, .insufficientData, .invalidLength, .nonInvertiblePlaintext]

/-- `k` steps of the machine (20_memory.md R53). -/
def steps : Nat → State → Result State
  | 0, s => .next s
  | k + 1, s => andThen (step s) (steps k)

/-- What a host reads after a command: the four results, unsigned (R20), and `STATUS`. -/
def State.holds (t : State) (x0 x1 x2 x3 : Int) (st : Word) : Prop :=
  uint t.r0 = x0 ∧ uint t.r1 = x1 ∧ uint t.r2 = x2 ∧ uint t.r3 = x3 ∧ t.status = st

/-- The two states agree in the four result registers and `STATUS`. -/
def State.sameOutcome (t u : State) : Prop :=
  t.r0 = u.r0 ∧ t.r1 = u.r1 ∧ t.r2 = u.r2 ∧ t.r3 = u.r3 ∧ t.status = u.status

/-- All fourteen operand registers, and the host's side of the port, are as before: the frame of every command (R28, R29).
There is no memory (20_memory.md R41) and no other register (R34). -/
def State.commandFrame (s t : State) : Prop :=
  (∀ r ∈ operandRegs, t.readReg r = s.readReg r) ∧ t.pending = s.pending ∧ t.responses = s.responses

/-- `MA0..3` written. -/
def State.withMA (s : State) (w0 w1 w2 w3 : Word) : State := { s with ma0 := w0, ma1 := w1, ma2 := w2, ma3 := w3 }

/-- `MB0..3` written. -/
def State.withMB (s : State) (w0 w1 w2 w3 : Word) : State := { s with mb0 := w0, mb1 := w1, mb2 := w2, mb3 := w3 }

/-- `V0`, `V1` written. -/
def State.withV (s : State) (w0 w1 : Word) : State := { s with v0 := w0, v1 := w1 }

/-- `NP`, `NC` written. -/
def State.withCounts (s : State) (np nc : Word) : State := { s with np := np, nc := nc }

/-- The inverses modulo 26 of the twelve units, as R87 lists them. -/
def inverseTable : List (Int × Int) :=
  [(1, 1), (3, 9), (5, 21), (7, 15), (9, 3), (11, 19), (15, 7), (17, 23), (19, 11), (21, 5), (23, 17), (25, 25)]

/-- A matrix operand by its register values, before normalisation: MA. -/
def State.rawMA (s : State) : Matrix2 := ⟨sint s.ma0, sint s.ma1, sint s.ma2, sint s.ma3⟩

/-- A matrix operand by its register values, before normalisation: MB. -/
def State.rawMB (s : State) : Matrix2 := ⟨sint s.mb0, sint s.mb1, sint s.mb2, sint s.mb3⟩

end Sys2Proof.Machine
end

