-- ==== Sys2Proof/Certificates/Slice0/Obligations.lean ====
section
/-! DEFINITION. The statements for the provers. Each docstring names the rules of spec/ it formalises; a clause that rests
on a choice of the model's own says so. -/

open Sys2Proof Sys2Proof.Machine

/-- 30_encoding.md R62: each of the seven words the table writes out decodes to its command. -/
def Obligations.CommandWordsDecode : Prop :=
  decode 0x00000001#32 = .ok .modinv ∧ decode 0x00000002#32 = .ok .mulv ∧ decode 0x00000003#32 = .ok .det ∧
  decode 0x00000004#32 = .ok .adj ∧ decode 0x00000005#32 = .ok .inv ∧ decode 0x00000006#32 = .ok .mulm ∧
  decode 0x00000007#32 = .ok .solve

/-- R62: a word decodes to a command if and only if it is, under the mask 0xFFFFFFFF, that command's one word; the
seven words are the table's. With `w` the command's own word: decoding what `encode` gives is the command. -/
def Obligations.DecodeAndEncodeAgree : Prop :=
  (∀ (w : Word) (i : Instr), decode w = .ok i ↔ w &&& 0xFFFFFFFF#32 = encode i) ∧
  ([Instr.modinv, .mulv, .det, .adj, .inv, .mulm, .solve].map fun i => (encode i).toNat) = [1, 2, 3, 4, 5, 6, 7]

/-- R63, R143: any other word written to `CMD` responds `Ok`, zeroes the results, sets `STATUS` to 7 and changes no
operand register. -/
def Obligations.IllegalWordRaisesIllegalCommand : Prop :=
  ∀ (w : Word) (s : State), (w.toNat / 256 ≠ 0 ∨ w.toNat = 0 ∨ 8 ≤ w.toNat) →
    ∃ t, serve (.regWrite 0x00#5 w) s = .next (t, some .ok) ∧ t.holds 0 0 0 0 0x00000007#32 ∧ s.commandFrame t

/-- R70: a program's list of triples encodes that program, and a triple encodes a transaction exactly when it is that
transaction's triple. -/
def Obligations.ProgramEncodingRoundTrip : Prop :=
  (∀ ts : List Transaction, decodeProgram (encodeProgram ts) = some ts) ∧
  (∀ (x : Triple) (t : Transaction), x.toTransaction = some t ↔ x = t.toTriple)

/-- 10_state.md R20, R25: which register each word index names, as a host read sees it, and `CMD` reads 0. -/
def Obligations.RegisterMap : Prop :=
  ∀ s : State,
    s.readResponse 0x00#5 = .value 0 ∧ s.readResponse 0x01#5 = .value s.status ∧
    s.readResponse 0x02#5 = .value s.a ∧ s.readResponse 0x03#5 = .value s.m ∧
    s.readResponse 0x04#5 = .value s.ma0 ∧ s.readResponse 0x05#5 = .value s.ma1 ∧
    s.readResponse 0x06#5 = .value s.ma2 ∧ s.readResponse 0x07#5 = .value s.ma3 ∧
    s.readResponse 0x08#5 = .value s.mb0 ∧ s.readResponse 0x09#5 = .value s.mb1 ∧
    s.readResponse 0x0A#5 = .value s.mb2 ∧ s.readResponse 0x0B#5 = .value s.mb3 ∧
    s.readResponse 0x0C#5 = .value s.v0 ∧ s.readResponse 0x0D#5 = .value s.v1 ∧
    s.readResponse 0x0E#5 = .value s.np ∧ s.readResponse 0x0F#5 = .value s.nc ∧
    s.readResponse 0x10#5 = .value s.r0 ∧ s.readResponse 0x11#5 = .value s.r1 ∧
    s.readResponse 0x12#5 = .value s.r2 ∧ s.readResponse 0x13#5 = .value s.r3

/-- 20_memory.md R43: a read responds `BusError` above 0x13, `Ok(0)` at `CMD`, else `Ok` with the register's pattern; the
state is unchanged in every case. -/
def Obligations.ReadChangesNothing : Prop :=
  ∀ (i : Index) (s : State), ∃ r, serve (.regRead i) s = .next (s, some r) ∧
    (0x13#5 < i → r = .busError) ∧
    (i = 0x00#5 → r = .value 0x00000000#32) ∧
    (∀ q : Reg, q ≠ .cmd → i = q.index → r = .value (s.readReg q))

/-- R44: a write responds `BusError` above 0x13 and changes nothing; at `CMD` it executes the command word and responds
`Ok`; at `STATUS` and `R0..R3` it responds `Ok` and changes nothing; else it sets the operand register, leaves every
other register and the host's side alone, and responds `Ok`. -/
def Obligations.WriteChangesOnlyItsRegister : Prop :=
  ∀ (i : Index) (v : Word) (s : State),
    (0x13#5 < i → serve (.regWrite i v) s = .next (s, some .busError)) ∧
    (i = 0x00#5 → ∃ t, runCommandWord v s = .next t ∧ serve (.regWrite i v) s = .next (t, some .ok)) ∧
    (i = 0x01#5 ∨ (0x10#5 ≤ i ∧ i ≤ 0x13#5) → serve (.regWrite i v) s = .next (s, some .ok)) ∧
    (0x02#5 ≤ i → i ≤ 0x0F#5 → ∃ t, serve (.regWrite i v) s = .next (t, some .ok) ∧
      t.readResponse i = .value v ∧ (∀ j, j ≠ i → t.readResponse j = s.readResponse j) ∧
      t.pending = s.pending ∧ t.responses = s.responses)

/-- R45: both kinds of access at 0x14 to 0x1F respond `BusError` and change nothing. -/
def Obligations.UnmappedAccessIsBusError : Prop :=
  ∀ (i : Index) (v : Word) (s : State), 0x14#5 ≤ i →
    serve (.regRead i) s = .next (s, some .busError) ∧ serve (.regWrite i v) s = .next (s, some .busError)

/-- 10_state.md R35: after a `Reset`, from any state, `M` is 26, every other register 0, and `CMD` reads 0. -/
def Obligations.ResetSetsEveryRegister : Prop :=
  ∀ s : State, ∃ t, serve .reset s = .next (t, none) ∧
    t.m = 26#32 ∧ t.readReg .cmd = 0#32 ∧ ∀ r : Reg, r ≠ .m → t.readReg r = 0#32

/-- R35, R162: the state the model starts from has `M = 26` and every other register 0. -/
def Obligations.ResetStateValues : Prop :=
  State.reset.m = 26#32 ∧ ∀ r : Reg, r ≠ .m → State.reset.readReg r = 0#32

/-- 70_reset_and_hazards.md R161: two `Reset`s in a row equal one, and a `Reset` leaves registers that do not depend on
what they were. The host's side of the port is the model's own (log entries 1 and 3) and is left as it is. -/
def Obligations.ResetForgetsAndIsIdempotent : Prop :=
  (∀ s t : State, s.pending = t.pending → s.responses = t.responses → serve .reset s = serve .reset t) ∧
  (∀ s t : State, serve .reset s = .next (t, none) → serve .reset t = .next (t, none))

/-- R24, R42, R47, R155, with the model's own host side (log entries 1, 2, 3): a step serves the host's next pending
transaction and records its response; with nothing pending it changes nothing. -/
def Obligations.StepServesNextTransaction : Prop :=
  (∀ s : State, s.pending = [] → step s = .next s) ∧
  (∀ (s u : State) (t : Transaction) (ts : List Transaction) (r : Option Response), s.pending = t :: ts →
    serve t (s.withPending ts) = .next (u, r) →
    step s = .next (u.withResponses (u.responses ++ r.toList)))

/-- R25, R61, with the model's own host side (log entries 1 and 3): when the host's next transaction writes to `CMD` a word
that decodes to a command, the step is exec of that command on the state without that transaction, and then the response
`Ok` recorded. -/
def Obligations.StepRunsTheDecodedCommand : Prop :=
  ∀ (s t : State) (w : Word) (i : Instr) (ts : List Transaction),
    s.pending = .regWrite 0x00#5 w :: ts → decode w = .ok i → i.wellFormed = true →
    exec i (s.withPending ts) = .next t →
    step s = .next (t.withResponses (t.responses ++ [.ok]))

/-- 60_exceptions.md R148: no run of the machine stops, whatever state it starts from: every transaction is served in
every state, and every number of steps (over the model's own pending list and idle step, log entries 1 and 2) answers a
next state. -/
def Obligations.NothingStopsTheMachine : Prop :=
  (∀ (t : Transaction) (s : State), ∃ u r, serve t s = .next (u, r)) ∧
  (∀ (k : Nat) (s : State), ∃ t : State, steps k s = .next t)

/-- 20_memory.md R53, 30_encoding.md R70, with the model's own host side (log entries 1 and 3): as many steps as there are
pending transactions give the left fold of the transactions over the state, and the responses in order. That any further
steps change nothing is the model's choice of an idle step (log entry 2), which rests on 10_state.md R24 and
60_exceptions.md R155. -/
def Obligations.RunIsTheFoldOfTransactions : Prop :=
  ∀ (s : State) (extra : Nat), ∃ (t : State) (rs : List Response),
    serveAll s.pending (s.withPending []) = .next (t, rs) ∧
    steps (s.pending.length + extra) s = .next (t.withResponses (s.responses ++ rs))

/-- 10_state.md R27, R22: a step keeps the invariant that `STATUS` is one of the twelve legal values and that the result
registers hold what that value says: Residues, MODINV's residue below 2^31 − 1, or zeros. A step with nothing pending is the model's idle step (log entry 2). -/
def Obligations.EveryStepKeepsTheInvariant : Prop :=
  ∀ s t : State, s.Inv → step s = .next t → t.Inv

/-- R27, R35: the reset state meets the invariant. -/
def Obligations.ResetMeetsTheInvariant : Prop := State.reset.Inv

/-- `STATUS` is written by every command and by reset, by nothing else (R26). The same of `R0..R3` follows from 20_memory.md
R43 (a read changes nothing), R44 and R46 (a host write does not reach them) and is said in passing by R49. So a step whose
transaction is no `CMD` write and no `Reset` leaves all five alone (log entry 1: the transaction is the first pending one; log entry 2: with
none pending the step is idle). -/
def Obligations.OnlyCommandsAndResetWriteOutcome : Prop :=
  ∀ s t : State, step s = .next t → (∀ w ts, s.pending ≠ .regWrite 0x00#5 w :: ts) →
    (∀ ts, s.pending ≠ .reset :: ts) → s.sameOutcome t

/-- R36: a `STATUS` of 0 identifies "no command since reset": every word written to `CMD` ends with a non-zero `STATUS`,
a `Reset` leaves 0, and no other transaction changes whether it is 0. -/
def Obligations.ZeroStatusMeansNoCommand : Prop :=
  (∀ (w : Word) (s : State), ∃ t, serve (.regWrite 0x00#5 w) s = .next (t, some .ok) ∧ t.status ≠ 0) ∧
  (∀ s : State, ∃ t, serve .reset s = .next (t, none) ∧ t.status = 0) ∧
  (∀ (i : Index) (s t : State) (r : Option Response), serve (.regRead i) s = .next (t, r) → t.status = s.status) ∧
  (∀ (i : Index) (v : Word) (s t : State) (r : Option Response), i ≠ 0x00#5 →
    serve (.regWrite i v) s = .next (t, r) → t.status = s.status)

/-- R28, R29, 20_memory.md R41: the frame of all seven commands (MODINV, MULV, DET, ADJ, INV, MULM, SOLVE): each answers a
next state, in which the fourteen operand registers and the host's side of the port are unchanged; only `R0..R3` and
`STATUS` may differ, and there is no memory. -/
def Obligations.CommandsChangeNoOperand : Prop :=
  ∀ (i : Instr) (s : State), ∃ t, exec i s = .next t ∧ s.commandFrame t

/-- R28: the outcome of a command is a function of the operand registers its rule names (30_encoding.md R65), at most ten,
alone: two states that agree on them, whatever else they hold, end with the same results and `STATUS`; and no operand
register changes. -/
def Obligations.CommandsReadOnlyTheirOperands : Prop :=
  ∀ (i : Instr) (s u : State), (∀ r ∈ Reg.readBy i, s.readReg r = u.readReg r) →
    (Reg.readBy i).length ≤ 10 ∧
    ∃ s' u', exec i s = .next s' ∧ exec i u = .next u' ∧ s'.sameOutcome u' ∧ s.commandFrame s' ∧ u.commandFrame u'

/-- R29: every word written to `CMD`, whatever its outcome, writes all four results and the whole of `STATUS` in one
transaction: no value they held before survives it. -/
def Obligations.NothingEarlierSurvivesACommand : Prop :=
  ∀ (w : Word) (x0 x1 x2 x3 st : Word) (s : State), ∃ t, serve (.regWrite 0x00#5 w) s = .next (t, some .ok) ∧
    serve (.regWrite 0x00#5 w) (s.deliver x0 x1 x2 x3 st) = .next (t, some .ok)

/-- 60_exceptions.md R143: `raise` leaves the results 0 and `STATUS` the code in `ERR`, `NONE`, `RLEN` and bits 31:8
zero, and every operand register, and the host's side, as it was. -/
def Obligations.RaiseIsTheWholeEffectOfAnError : Prop :=
  ∀ (e : ErrorKind) (s : State), (s.raise e).holds 0 0 0 0 (BitVec.setWidth 32 e.code) ∧ s.commandFrame (s.raise e) ∧
    statusErr (s.raise e).status = e.code ∧ statusNone (s.raise e).status = 0 ∧ statusRlen (s.raise e).status = 0 ∧
    statusReserved (s.raise e).status = 0

/-- 20_memory.md R50: issuing the same command word twice leaves what issuing it once leaves. -/
def Obligations.CommandTwiceEqualsOnce : Prop :=
  ∀ (w : Word) (s : State), ∃ t, runCommandWord w s = .next t ∧ runCommandWord w t = .next t

/-- 40_modinv.md R81: MODINV. `a' = nmod(a, m)`; `BadModulus` when `m ≤ 0`; none when no `i` in `[1, m)` has
`nmod(a' * i, m) = 1`; else the smallest such `i`. -/
def Obligations.ModinvSemantics : Prop :=
  ∀ s : State, ∃ t, exec .modinv s = .next t ∧
    let a := sint s.a
    let m := sint s.m
    let inS := fun i : Int => 1 ≤ i ∧ i ≤ m - 1 ∧ nmod (nmod a m * i) m = 1
    (m ≤ 0 → t.holds 0 0 0 0 0x00000006#32) ∧
    (0 < m → (∀ i, ¬ inS i) → t.holds 0 0 0 0 0x00000010#32) ∧
    (0 < m → ∀ i, inS i → (∀ j, inS j → i ≤ j) → t.holds i 0 0 0 0x00000020#32)

/-- R83: for `m ≥ 2` MODINV finds a result exactly when `gcd(a', m) = 1`, and then no other number of `[1, m)` is an
inverse. -/
def Obligations.ModinvFindsExactlyTheCoprime : Prop :=
  ∀ s : State, 2 ≤ sint s.m → ∃ t, exec .modinv s = .next t ∧
    (t.status = 0x00000020#32 ↔ Int.gcd (nmod (sint s.a) (sint s.m)) (sint s.m) = 1) ∧
    (t.status = 0x00000020#32 → ∀ i : Int, 1 ≤ i → i < sint s.m →
      (nmod (nmod (sint s.a) (sint s.m) * i) (sint s.m) = 1 ↔ i = uint t.r0))

/-- R87: MODINV at `m = 26` is the table: the listed inverse for the twelve listed values of `a'`, none for every other. -/
def Obligations.ModinvTableAt26 : Prop :=
  ∀ s : State, s.m = 0x0000001A#32 → ∃ t, exec .modinv s = .next t ∧
    (∀ p ∈ inverseTable, nmod (sint s.a) 26 = p.1 → t.holds p.2 0 0 0 0x00000020#32) ∧
    ((∀ p ∈ inverseTable, nmod (sint s.a) 26 ≠ p.1) → t.holds 0 0 0 0 0x00000010#32)

/-- R88, log entry 5: the value the model computes by Euclid's algorithm is the value the search of R81 finds, for every
`a` and every positive `m`. -/
def Obligations.EuclidEqualsTheSearch : Prop :=
  ∀ a m : Int, 1 ≤ m → modInverse a m = searchInverse a m

/-- 41_matrix_ops.md R92: MULV. -/
def Obligations.MulvResult : Prop :=
  ∀ s : State, ∃ t, exec .mulv s = .next t ∧
    let a := residueOf s.ma0
    let b := residueOf s.ma1
    let c := residueOf s.ma2
    let d := residueOf s.ma3
    let v0 := residueOf s.v0
    let v1 := residueOf s.v1
    t.holds (nmod (a * v0 + b * v1) 26) (nmod (c * v0 + d * v1) 26) 0 0 0x00000040#32

/-- R94: DET. -/
def Obligations.DetResult : Prop :=
  ∀ s : State, ∃ t, exec .det s = .next t ∧
    t.holds (nmod (residueOf s.ma0 * residueOf s.ma3 - residueOf s.ma1 * residueOf s.ma2) 26) 0 0 0 0x00000020#32

/-- R96: ADJ: the diagonal swapped, and `26 − b` (0 when `b = 0`), `26 − c` (0 when `c = 0`) off it. -/
def Obligations.AdjResult : Prop :=
  ∀ s : State, ∃ t, exec .adj s = .next t ∧
    t.holds (residueOf s.ma3)
      (if residueOf s.ma1 = 0 then 0 else 26 - residueOf s.ma1)
      (if residueOf s.ma2 = 0 then 0 else 26 - residueOf s.ma2)
      (residueOf s.ma0) 0x00000080#32

/-- R98: INV: with `i` the smallest number of 1..25 that inverts the determinant, `i` times the adjugate; `NotInvertible`
when there is none; and there is one exactly when the determinant is coprime with 26. -/
def Obligations.InvResult : Prop :=
  ∀ s : State, ∃ t, exec .inv s = .next t ∧
    let a := residueOf s.ma0
    let b := residueOf s.ma1
    let c := residueOf s.ma2
    let d := residueOf s.ma3
    let det := nmod (a * d - b * c) 26
    let inverts := fun i : Int => 1 ≤ i ∧ i ≤ 25 ∧ nmod (det * i) 26 = 1
    ((∃ i, inverts i) ↔ Int.gcd det 26 = 1) ∧
    ((∀ i, ¬ inverts i) → t.holds 0 0 0 0 0x00000001#32) ∧
    (∀ i, inverts i → (∀ j, inverts j → i ≤ j) →
      t.holds (nmod (i * d) 26) (nmod (i * -b) 26) (nmod (i * -c) 26) (nmod (i * a) 26) 0x00000080#32)

/-- R98, R14: `invert(K)` succeeds iff `gcd(determinant(K), 26) == 1`, the determinant taken over the register values
themselves. -/
def Obligations.InvSucceedsIffDeterminantCoprime : Prop :=
  ∀ s : State, ∃ t, exec .inv s = .next t ∧
    (t.status = 0x00000080#32 ↔
      Int.gcd (sint s.ma0 * sint s.ma3 - sint s.ma1 * sint s.ma2) 26 = 1) ∧
    (t.status ≠ 0x00000080#32 → t.holds 0 0 0 0 0x00000001#32)

/-- R99: for an invertible MA, MULM of MA with INV's result, in either order, is the identity, and INV of INV's result is MA
normalised. -/
def Obligations.InvIsATwoSidedInverse : Prop :=
  ∀ s t : State, exec .inv s = .next t → t.status = 0x00000080#32 →
    (∃ u, exec .mulm (s.withMB t.r0 t.r1 t.r2 t.r3) = .next u ∧ u.holds 1 0 0 1 0x00000080#32) ∧
    (∃ u, exec .mulm ((s.withMA t.r0 t.r1 t.r2 t.r3).withMB s.ma0 s.ma1 s.ma2 s.ma3) = .next u ∧
      u.holds 1 0 0 1 0x00000080#32) ∧
    (∃ u, exec .inv (s.withMA t.r0 t.r1 t.r2 t.r3) = .next u ∧
      u.holds (residueOf s.ma0) (residueOf s.ma1) (residueOf s.ma2) (residueOf s.ma3) 0x00000080#32)

/-- R100: MULM, MA on the left. -/
def Obligations.MulmResult : Prop :=
  ∀ s : State, ∃ t, exec .mulm s = .next t ∧
    let a := residueOf s.ma0
    let b := residueOf s.ma1
    let c := residueOf s.ma2
    let d := residueOf s.ma3
    let e := residueOf s.mb0
    let f := residueOf s.mb1
    let g := residueOf s.mb2
    let h := residueOf s.mb3
    t.holds (nmod (a * e + b * g) 26) (nmod (a * f + b * h) 26) (nmod (c * e + d * g) 26)
      (nmod (c * f + d * h) 26) 0x00000080#32

/-- R90: normalising the operands first gives the same result as evaluating the formula on the register values and
reducing once at the end: MULV, DET, ADJ, MULM. -/
def Obligations.RawFormulasGiveTheSameResults : Prop :=
  ∀ s : State,
    (∃ t, exec .mulv s = .next t ∧
      t.holds (nmod (s.rawMA.a * sint s.v0 + s.rawMA.b * sint s.v1) 26)
        (nmod (s.rawMA.c * sint s.v0 + s.rawMA.d * sint s.v1) 26) 0 0 0x00000040#32) ∧
    (∃ t, exec .det s = .next t ∧
      t.holds (nmod (s.rawMA.a * s.rawMA.d - s.rawMA.b * s.rawMA.c) 26) 0 0 0 0x00000020#32) ∧
    (∃ t, exec .adj s = .next t ∧
      t.holds (nmod s.rawMA.d 26) (nmod (-s.rawMA.b) 26) (nmod (-s.rawMA.c) 26) (nmod s.rawMA.a 26) 0x00000080#32) ∧
    (∃ t, exec .mulm s = .next t ∧
      t.holds (nmod (s.rawMA.a * s.rawMB.a + s.rawMA.b * s.rawMB.c) 26)
        (nmod (s.rawMA.a * s.rawMB.b + s.rawMA.b * s.rawMB.d) 26)
        (nmod (s.rawMA.c * s.rawMB.a + s.rawMA.d * s.rawMB.c) 26)
        (nmod (s.rawMA.c * s.rawMB.b + s.rawMA.d * s.rawMB.d) 26) 0x00000080#32)

/-- R102, 10_state.md R23: any representative of the same class modulo 26 gives the same result in the six matrix commands
(SOLVE's counts being equal), and any representative of `a` modulo `m` in MODINV. -/
def Obligations.OnlyTheClassesMatter : Prop :=
  (∀ (i : Instr) (s u : State), i ≠ .modinv →
    (∀ r ∈ Reg.readBy i, sint (s.readReg r) ≡ sint (u.readReg r) [ZMOD 26]) → s.np = u.np → s.nc = u.nc →
    ∃ s' u', exec i s = .next s' ∧ exec i u = .next u' ∧ s'.sameOutcome u') ∧
  (∀ s u : State, s.m = u.m → sint s.a ≡ sint u.a [ZMOD sint s.m] →
    ∃ s' u', exec .modinv s = .next s' ∧ exec .modinv u = .next u' ∧ s'.sameOutcome u')

/-- R102: the determinant of a product is the product of the determinants, over DET, MULM and their results. -/
def Obligations.DeterminantOfAProduct : Prop :=
  ∀ s : State, ∃ p dx dy dp, exec .mulm s = .next p ∧ exec .det s = .next dx ∧
    exec .det (s.withMA s.mb0 s.mb1 s.mb2 s.mb3) = .next dy ∧
    exec .det (s.withMA p.r0 p.r1 p.r2 p.r3) = .next dp ∧
    uint dp.r0 = nmod (uint dx.r0 * uint dy.r0) 26

/-- R102: `MULV(MULM(X, Y), v) = MULV(X, MULV(Y, v))`. -/
def Obligations.ProductActsAsComposition : Prop :=
  ∀ s : State, ∃ p y l r, exec .mulm s = .next p ∧
    exec .mulv (s.withMA p.r0 p.r1 p.r2 p.r3) = .next l ∧
    exec .mulv (s.withMA s.mb0 s.mb1 s.mb2 s.mb3) = .next y ∧
    exec .mulv (s.withV y.r0 y.r1) = .next r ∧ l.sameOutcome r

/-- R102: `MULM(X, ADJ(X)) = MULM(ADJ(X), X) = [[DET(X), 0], [0, DET(X)]]`. -/
def Obligations.MatrixTimesItsAdjugate : Prop :=
  ∀ s : State, ∃ j d l r, exec .adj s = .next j ∧ exec .det s = .next d ∧
    exec .mulm (s.withMB j.r0 j.r1 j.r2 j.r3) = .next l ∧
    exec .mulm ((s.withMA j.r0 j.r1 j.r2 j.r3).withMB s.ma0 s.ma1 s.ma2 s.ma3) = .next r ∧
    l.holds (uint d.r0) 0 0 (uint d.r0) 0x00000080#32 ∧ r.holds (uint d.r0) 0 0 (uint d.r0) 0x00000080#32

/-- 42_solver.md R112: SOLVE: `LengthMismatch`, `InsufficientData`, `InvalidLength`, `NonInvertiblePlaintext` in this order,
else `K = C × inv(P)` with `P = [[p0,p2],[p1,p3]]`, `C = [[c0,c2],[c1,c3]]`. -/
def Obligations.SolveSemantics : Prop :=
  ∀ s : State, ∃ t, exec .solve s = .next t ∧
    let np := s.np.toNat
    let nc := s.nc.toNat
    let p0 := residueOf s.ma0
    let p1 := residueOf s.ma1
    let p2 := residueOf s.ma2
    let p3 := residueOf s.ma3
    let c0 := residueOf s.mb0
    let c1 := residueOf s.mb1
    let c2 := residueOf s.mb2
    let c3 := residueOf s.mb3
    let det := nmod (p0 * p3 - p2 * p1) 26
    let inverts := fun i : Int => 1 ≤ i ∧ i ≤ 25 ∧ nmod (det * i) 26 = 1
    if np ≠ nc then t.holds 0 0 0 0 0x00000003#32
    else if np < 4 then t.holds 0 0 0 0 0x00000004#32
    else if np % 2 = 1 then t.holds 0 0 0 0 0x00000002#32
    else
      ((∀ i, ¬ inverts i) → t.holds 0 0 0 0 0x00000005#32) ∧
      (∀ i, inverts i → (∀ j, inverts j → i ≤ j) →
        let q00 := nmod (i * p3) 26
        let q01 := nmod (-i * p2) 26
        let q10 := nmod (-i * p1) 26
        let q11 := nmod (i * p0) 26
        t.holds (nmod (c0 * q00 + c2 * q10) 26) (nmod (c0 * q01 + c2 * q11) 26)
          (nmod (c1 * q00 + c3 * q10) 26) (nmod (c1 * q01 + c3 * q11) 26) 0x00000080#32)

/-- R115: for operands that pass the three length checks, INV on `P` row-major and MULM of `C` with its result give what
SOLVE gives, and where INV reports `NotInvertible` SOLVE reports `NonInvertiblePlaintext`. -/
def Obligations.SolveEqualsInvThenMulm : Prop :=
  ∀ s : State, s.np = s.nc → 4 ≤ s.np.toNat → s.np.toNat % 2 = 0 →
    ∃ t u, exec .solve s = .next t ∧ exec .inv (s.withMA s.ma0 s.ma2 s.ma1 s.ma3) = .next u ∧
      ((u.status = 0x00000001#32 ∧ t.holds 0 0 0 0 0x00000005#32) ∨
       (u.status = 0x00000080#32 ∧
        ∃ k, exec .mulm ((s.withMA s.mb0 s.mb2 s.mb1 s.mb3).withMB u.r0 u.r1 u.r2 u.r3) = .next k ∧
          t.sameOutcome k))

/-- R116: the cracker's correctness. Two digraphs encrypted by MULV under any key, and an invertible plaintext matrix,
give SOLVE the key back, normalised; the key itself need not be invertible. -/
def Obligations.SolveRecoversTheKey : Prop :=
  ∀ (s : State) (k0 k1 k2 k3 p0 p1 p2 p3 n : Word), 4 ≤ n.toNat → n.toNat % 2 = 0 →
    Int.gcd (sint p0 * sint p3 - sint p2 * sint p1) 26 = 1 →
    ∃ x y t, exec .mulv ((s.withMA k0 k1 k2 k3).withV p0 p1) = .next x ∧
      exec .mulv ((s.withMA k0 k1 k2 k3).withV p2 p3) = .next y ∧
      exec .solve (((s.withMA p0 p1 p2 p3).withMB x.r0 x.r1 y.r0 y.r1).withCounts n n) = .next t ∧
      t.holds (residueOf k0) (residueOf k1) (residueOf k2) (residueOf k3) 0x00000080#32

/-- 45_host_software.md R127 on the MIU: for every invertible matrix and every digraph, MULV under INV's result undoes
MULV. -/
def Obligations.DecryptingADigraphUndoesEncrypting : Prop :=
  ∀ s t : State, exec .inv s = .next t → t.status = 0x00000080#32 →
    ∃ x y, exec .mulv s = .next x ∧ exec .mulv ((s.withMA t.r0 t.r1 t.r2 t.r3).withV x.r0 x.r1) = .next y ∧
      y.holds (residueOf s.v0) (residueOf s.v1) 0 0 0x00000040#32

/-- 60_exceptions.md R141: a command that ends with an error code ends with one of the errors the table lists for it, its
results zeroed (R146), `NONE` and `RLEN` 0 (R143). -/
def Obligations.CommandsRaiseOnlyTheirErrors : Prop :=
  ∀ (i : Instr) (s : State), ∃ t, exec i s = .next t ∧
    ∀ e : ErrorKind, statusErr t.status = e.code →
      e ∈ ErrorKind.raisedBy i ∧ t.holds 0 0 0 0 (BitVec.setWidth 32 e.code)

/-- 20_memory.md R48: in whatever lane order `BUS_BYTE_ORDER` is, a word written through the byte lanes is the word read
back, and register `i` sits at byte offset `4·i`. -/
def Obligations.BusCarriesWholeWords : Prop :=
  (∀ (order : Equiv.Perm (Fin 4)) (w : Word), busWord order (busLane order w) = w) ∧
  (∀ i : Index, busOffset i = 4 * i.toNat ∧ busIndex (busOffset i) = some i) ∧
  (∀ (i : Index) (w : Word), busWrite (busOffset i) (busLane Config.busByteOrder w) = some (.regWrite i w))

/-- 30_encoding.md R68: what `WR` stores in an operand register, a negative integer as its two's-complement pattern among
it, `RD .. ==` of the same integer finds there. That `RD .. ==` compares patterns is the model's choice (log entry 17). -/
def Obligations.ScriptWriteReadsBack : Prop :=
  ∀ (r : Reg) (n : Int) (s : State), r ∈ operandRegs → scriptInt n = true →
    ∃ t, runScript [.wr (.name r) n, .rdEq (.name r) n] s = .next (t, true) ∧
      (0 ≤ n → uint (t.readReg r) = n) ∧ (n < 0 → uint (t.readReg r) = n + 2 ^ 32)

/-- R69, 20_memory.md R50: the order of the writes of different operand registers does not matter. -/
def Obligations.OperandWritesCommute : Prop :=
  ∀ (r q : Reg) (v w : Word) (s : State), r ∈ operandRegs → q ∈ operandRegs → r ≠ q →
    ∃ t, serveAll [writeTo r v, writeTo q w] s = .next (t, [.ok, .ok]) ∧
      serveAll [writeTo q w, writeTo r v] s = .next (t, [.ok, .ok])

/-- 60_exceptions.md R153: a step of one unit is that unit's step alone; the other units keep their states. The list of units,
and that a step of a unit beyond it changes nothing, are the model's own (log entry 16). -/
def Obligations.UnitsShareNothing : Prop :=
  ∀ (units : List State) (k : Nat), ∃ vs : List State, stepUnit k units = .next vs ∧ vs.length = units.length ∧
    (∀ j, j ≠ k → vs[j]? = units[j]?) ∧
    (∀ s t : State, units[k]? = some s → step s = .next t → vs[k]? = some t)

/-- 45_host_software.md R120, R121: residues written as letters and read as residues again are the same residues, and a
text keeps only its letters, uppercased, in order. That a text's letters are the 52 ASCII ones, any other character dropped,
is the model's choice beyond ASCII (log entry 19). -/
def Obligations.CodecRoundTrip : Prop :=
  (∀ rs : List Residue, textToResidues (residuesToText rs) = rs) ∧
  (∀ text : List Char, residuesToText (textToResidues text) =
    ((text.filter fun c => (letterResidue c).isSome).map fun c => if 97 ≤ c.toNat then Char.ofNat (c.toNat - 32) else c))

/-- R123, R124: `hill_encrypt` of an ASCII text, driven through the MIU from any state, never fails and gives each
digraph's product with the key, in order, the text padded by one X when its letters are odd in number. -/
def Obligations.HostEncryptMultipliesEachDigraph : Prop :=
  ∀ (text : List Char) (key : Matrix2) (s : State), isAscii text = true →
    ∃ t, hillEncrypt text key s = .next (t, .ok (residuesToText
      ((digraphs (padResidues (textToResidues text))).flatMap fun v =>
        [Fin.ofNat 26 (nmod (key.a * (v.1.val : Int) + key.b * (v.2.val : Int)) 26).toNat,
         Fin.ofNat 26 (nmod (key.c * (v.1.val : Int) + key.d * (v.2.val : Int)) 26).toNat])))

/-- R125: `hill_decrypt` of an ASCII text reports `NotInvertible` for a key whose determinant is not coprime with 26,
before any look at the text; else `InvalidLength` for an odd number of letters; else it succeeds. -/
def Obligations.HostDecryptChecksKeyThenLength : Prop :=
  ∀ (text : List Char) (key : Matrix2) (s : State),
    (Int.gcd (key.a * key.d - key.b * key.c) 26 ≠ 1 →
      ∃ t, hillDecrypt text key s = .next (t, .error (.reported .notInvertible))) ∧
    (Int.gcd (key.a * key.d - key.b * key.c) 26 = 1 → isAscii text = true →
      (textToResidues text).length % 2 = 1 →
      ∃ t, hillDecrypt text key s = .next (t, .error (.reported .invalidLength))) ∧
    (Int.gcd (key.a * key.d - key.b * key.c) 26 = 1 → isAscii text = true →
      (textToResidues text).length % 2 = 0 → ∃ t out, hillDecrypt text key s = .next (t, .ok out))

/-- R127, 90_conflicts.md C7: for every key whose determinant is coprime with 26 and every ASCII text, decrypting the
encrypted text gives the text's letters in upper case, followed by one X when their number is odd. -/
def Obligations.HostRoundTrip : Prop :=
  ∀ (text : List Char) (key : Matrix2) (s : State), isAscii text = true →
    Int.gcd (key.a * key.d - key.b * key.c) 26 = 1 →
    ∃ t cipher u, hillEncrypt text key s = .next (t, .ok cipher) ∧
      hillDecrypt cipher key t = .next (u, .ok (residuesToText (padResidues (textToResidues text))))

/-- R116, R128: the document's cracker property at text level: for a text of an even number, at least four, of letters whose
first two digraphs form an invertible matrix, `hill_crack` on the text and its encryption returns the key, normalised. -/
def Obligations.HostCrackReturnsTheKey : Prop :=
  ∀ (text : List Char) (key : Matrix2) (p0 p1 p2 p3 : Residue) (rest : List Residue) (s : State), isAscii text = true →
    textToResidues text = p0 :: p1 :: p2 :: p3 :: rest → rest.length % 2 = 0 →
    Int.gcd ((p0.val : Int) * p3.val - p2.val * p1.val) 26 = 1 →
    ∃ t cipher u, hillEncrypt text key s = .next (t, .ok cipher) ∧
      hillCrack text cipher t = .next (u, .ok key.normalise)

/-- R129: `mod_inverse` of any integer `a` at a positive modulus that fits the register gives the inverse in `[1, m)`, or
none when `gcd(a, m)` is not 1 or `m` is 1 (C1). -/
def Obligations.HostModInverse : Prop :=
  ∀ (a m : Int) (s : State), 1 ≤ m → m < 2 ^ 31 →
    ∃ t r, hostModInverse a m s = .next (t, .ok r) ∧
      (∀ i, r = some i → 1 ≤ i ∧ i < m ∧ nmod (a * i) m = 1) ∧
      (r = none ↔ m = 1 ∨ Int.gcd a m ≠ 1)
end

