-- ==== Sys2Proof/Laws/Arith.lean ====
section
/-! SUPPORT. The arithmetic of the commands: `nmod` as a ring homomorphism (41_matrix_ops.md R90), the readings of a
word, and the one spec lemma of `modInverse` (40_modinv.md R81, R83). -/

namespace Sys2Proof.Machine

theorem nmod_nonneg (n : Int) {m : Int} (h : 1 ≤ m) : 0 ≤ nmod n m := Int.emod_nonneg n (by omega)

theorem nmod_lt (n : Int) {m : Int} (h : 1 ≤ m) : nmod n m < m := Int.emod_lt_of_pos n (by omega)

/-- Two integers of one class have the same `nmod` (R8). -/
theorem nmod_eq_iff (n k m : Int) : nmod n m = nmod k m ↔ n ≡ k [ZMOD m] := Iff.rfl

/-- An integer and its `nmod` are of one class (R8). -/
theorem nmod_modEq (n m : Int) : nmod n m ≡ n [ZMOD m] := Int.mod_modEq n m

@[simp] theorem nmod_nmod (n m : Int) : nmod (nmod n m) m = nmod n m := Int.emod_emod_of_dvd n (dvd_refl m)

theorem nmod_of_range {n m : Int} (h0 : 0 ≤ n) (h1 : n < m) : nmod n m = n := Int.emod_eq_of_lt h0 h1

/-- Residues modulo 26 are equal exactly when the classes are: the way to prove identities of matrices by `ring`
(41_matrix_ops.md R90, R102). -/
theorem nmod_eq_iff_zmod (n k : Int) : nmod n Config.modulus = nmod k Config.modulus ↔ (n : ZMod 26) = (k : ZMod 26) :=
  (ZMod.intCast_eq_intCast_iff n k 26).symm

/-- Reduction does not change the class (R90). -/
@[simp] theorem cast_nmod (n : Int) : ((nmod n Config.modulus : Int) : ZMod 26) = (n : ZMod 26) :=
  (ZMod.intCast_eq_intCast_iff _ _ 26).mpr (nmod_modEq n _)

/-- `word` and `uint` are inverse on the words' range (R7). -/
theorem uint_word {n : Int} (h0 : 0 ≤ n) (h1 : n < 2 ^ 32) : uint (word n) = n := by
  unfold uint word
  rw [BitVec.toNat_ofInt]
  norm_num
  omega

/-- A Residue survives being stored in a register (R11). -/
theorem uint_word_nmod (n : Int) : uint (word (nmod n Config.modulus)) = nmod n Config.modulus :=
  uint_word (nmod_nonneg n (by decide)) (lt_trans (nmod_lt n (by decide)) (by decide))

/-- `sint` and `uint` agree on a non-negative register value (R7). -/
theorem sint_word {n : Int} (h0 : 0 ≤ n) (h1 : n < 2 ^ 31) : sint (word n) = n := by
  unfold sint word
  rw [BitVec.toInt_ofInt]
  exact Int.bmod_eq_of_le (by norm_num; omega) (by norm_num; omega)

/-- A stored Residue is read back by a command as itself (R90). -/
theorem residueOf_word_nmod (n : Int) : residueOf (word (nmod n Config.modulus)) = nmod n Config.modulus := by
  unfold residueOf
  rw [sint_word (nmod_nonneg n (by decide)) (lt_trans (nmod_lt n (by decide)) (by decide)), nmod_nmod]

theorem residueOf_nonneg (w : Word) : 0 ≤ residueOf w := nmod_nonneg _ (by decide)

theorem residueOf_lt (w : Word) : residueOf w < 26 := nmod_lt _ (by decide)

theorem sint_lt (w : Word) : sint w < 2 ^ 31 := by
  have := BitVec.toInt_lt (x := w); simpa [sint] using this

/-- Euclid's rounds keep both remainders multiples of `a` modulo `m`, so the result's multiple is the greatest common
divisor. -/
theorem bezout_modEq (m a : Int) : ∀ (fuel r0 r1 : Nat) (t0 t1 : Int), r1 < fuel →
    t0 * a ≡ r0 [ZMOD m] → t1 * a ≡ r1 [ZMOD m] →
    bezout fuel r0 r1 t0 t1 * a ≡ (Nat.gcd r0 r1 : Int) [ZMOD m] := by
  intro fuel
  induction fuel with
  | zero => intro r0 r1 t0 t1 h; omega
  | succ fuel ih =>
    intro r0 r1 t0 t1 h h0 h1
    unfold bezout
    split
    · next hz => subst hz; simpa using h0
    · next hz =>
      have hlt : r0 % r1 < r1 := Nat.mod_lt _ (Nat.pos_of_ne_zero hz)
      have hgcd : Nat.gcd r0 r1 = Nat.gcd r1 (r0 % r1) := by
        rw [Nat.gcd_comm r0 r1, Nat.gcd_rec r1 r0, Nat.gcd_comm]
      rw [hgcd]
      refine ih _ _ _ _ (by omega) h1 ?_
      have hdiv : ((r0 % r1 : Nat) : Int) = r0 - (r0 / r1 : Nat) * r1 := by
        have := Nat.div_add_mod r0 r1
        have h' : (r0 : Int) = r1 * (r0 / r1 : Nat) + (r0 % r1 : Nat) := by exact_mod_cast this.symm
        linarith
      rw [hdiv, sub_mul, mul_assoc]
      exact h0.sub (h1.mul_left _)

/-- When some `j` is an inverse, the candidate is one (R88). -/
theorem inverseCandidate_spec {a' m j : Int} (h0 : 0 ≤ a') (h1 : a' < m) (hj : nmod (a' * j) m = 1) :
    nmod (a' * inverseCandidate a' m) m = 1 := by
  have hm : 2 ≤ m := by
    by_contra hlt
    have : m = 1 := by omega
    subst this
    simp [nmod] at hj
  have hmod : a' * j ≡ 1 [ZMOD m] := by
    have h1' : nmod 1 m = 1 := nmod_of_range (by omega) (by omega)
    exact hj.trans h1'.symm
  have hcop : IsCoprime m a' := by
    obtain ⟨c, hc⟩ := hmod.dvd
    exact ⟨c, j, by linarith [mul_comm c m, mul_comm j a']⟩
  have hgcd : Nat.gcd m.toNat a'.toNat = 1 := by
    have hg := Int.isCoprime_iff_gcd_eq_one.mp hcop
    have e1 : ((m.toNat : Nat) : Int) = m := Int.toNat_of_nonneg (by omega)
    have e2 : ((a'.toNat : Nat) : Int) = a' := Int.toNat_of_nonneg h0
    rw [← e1, ← e2, Int.gcd_natCast_natCast] at hg
    exact hg
  have hb := bezout_modEq m a' m.toNat m.toNat a'.toNat 0 1 (by omega)
    (by rw [Int.toNat_of_nonneg (by omega), zero_mul]; exact (Int.modEq_zero_iff_dvd.mpr dvd_rfl).symm)
    (by rw [Int.toNat_of_nonneg h0, one_mul])
  rw [hgcd] at hb
  have : a' * inverseCandidate a' m ≡ 1 [ZMOD m] := by
    unfold inverseCandidate
    rw [mul_comm]
    exact ((nmod_modEq _ _).mul_right a').trans (by simpa using hb)
  have h1' : nmod 1 m = 1 := nmod_of_range (by omega) (by omega)
  exact Eq.trans this h1'

/-- Inverses of one number are of one class (R83). -/
theorem inverse_unique {a' m i j : Int} (hi : a' * i ≡ 1 [ZMOD m]) (hj : a' * j ≡ 1 [ZMOD m]) : i ≡ j [ZMOD m] := by
  have h1 : i * (a' * j) ≡ i * 1 [ZMOD m] := hj.mul_left i
  have h2 : j * (a' * i) ≡ j * 1 [ZMOD m] := hi.mul_left j
  calc i = i * 1 := (mul_one i).symm
    _ ≡ i * (a' * j) [ZMOD m] := h1.symm
    _ = j * (a' * i) := by ring
    _ ≡ j * 1 [ZMOD m] := h2
    _ = j := mul_one j

/-- What `modInverse` answers, whole: `i` exactly when `i` lies in `[1, m)` and passes the test of R81. -/
theorem modInverse_eq_some_iff {a m i : Int} (hm : 1 ≤ m) :
    modInverse a m = some i ↔ 1 ≤ i ∧ i < m ∧ nmod (nmod a m * i) m = 1 := by
  have hone : ∀ {x : Int}, nmod x m = 1 → x ≡ 1 [ZMOD m] := by
    intro x hx
    have h2 : (1 : Int) < m := hx ▸ nmod_lt x hm
    exact hx.trans (nmod_of_range (by omega) h2).symm
  constructor
  · intro h
    unfold modInverse at h
    simp only at h
    split at h
    · next ht =>
      cases h
      refine ⟨?_, nmod_lt _ hm, ht⟩
      have h0 : 0 ≤ inverseCandidate (nmod a m) m := nmod_nonneg _ hm
      rcases h0.lt_or_eq with h0 | h0
      · omega
      · rw [← h0, mul_zero] at ht
        simp [nmod] at ht
    · cases h
  · rintro ⟨h1, h2, h3⟩
    have hc := inverseCandidate_spec (nmod_nonneg a hm) (nmod_lt a hm) h3
    have hu := inverse_unique (hone hc) (hone h3)
    have he : inverseCandidate (nmod a m) m = i := by
      have h := (nmod_eq_iff _ _ _).mpr hu
      rwa [nmod_of_range (by omega) h2, inverseCandidate, nmod_nmod] at h
    unfold modInverse
    simp only
    rw [if_pos hc, he]

/-- `modInverse` answers none exactly when no `i` of `[1, m)` passes the test of R81. -/
theorem modInverse_eq_none_iff {a m : Int} (hm : 1 ≤ m) :
    modInverse a m = none ↔ ∀ i, 1 ≤ i → i < m → nmod (nmod a m * i) m ≠ 1 := by
  rw [Option.eq_none_iff_forall_ne_some]
  simp only [ne_eq, modInverse_eq_some_iff hm]
  constructor
  · intro h i h1 h2 h3
    exact h i ⟨h1, h2, h3⟩
  · rintro h i ⟨h1, h2, h3⟩
    exact h i h1 h2 h3

/-- The inverse depends only on the class of `a` (R83). -/
theorem modInverse_nmod (a m : Int) : modInverse (nmod a m) m = modInverse a m := by
  unfold modInverse
  rw [nmod_nmod]

/-- An inverse exists exactly for the numbers coprime with a modulus of at least 2 (R83). -/
theorem modInverse_isSome_iff_gcd {a m : Int} (hm : 2 ≤ m) : (modInverse a m).isSome ↔ Int.gcd a m = 1 := by
  have hiff : ∀ i : Int, nmod (nmod a m * i) m = 1 ↔ a * i ≡ 1 [ZMOD m] := by
    intro i
    have h1 : nmod 1 m = 1 := nmod_of_range (by omega) (by omega)
    have h2 : nmod (nmod a m * i) m = nmod (a * i) m := (nmod_modEq a m).mul_right i
    rw [h2]
    exact ⟨fun h => h.trans h1.symm, fun h => Eq.trans h h1⟩
  rw [Option.isSome_iff_exists]
  constructor
  · rintro ⟨i, hi⟩
    obtain ⟨c, hc⟩ := ((hiff i).mp ((modInverse_eq_some_iff (by omega)).mp hi).2.2).dvd
    exact Int.isCoprime_iff_gcd_eq_one.mp ⟨i, c, by linarith [mul_comm c m, mul_comm i a]⟩
  · intro h
    obtain ⟨u, v, huv⟩ := Int.isCoprime_iff_gcd_eq_one.mpr h
    have hu : a * nmod u m ≡ 1 [ZMOD m] := by
      have h1 : a * nmod u m ≡ a * u [ZMOD m] := (nmod_modEq u m).mul_left a
      have h2 : a * u ≡ 1 [ZMOD m] := Int.modEq_iff_dvd.mpr ⟨v, by linarith [mul_comm v m, mul_comm u a]⟩
      exact h1.trans h2
    refine ⟨nmod u m, (modInverse_eq_some_iff (by omega)).mpr ⟨?_, nmod_lt _ (by omega), (hiff _).mpr hu⟩⟩
    rcases (nmod_nonneg u (show 1 ≤ m by omega)).lt_or_eq with h0 | h0
    · omega
    · exfalso
      have h1 := (hiff (nmod u m)).mpr hu
      rw [← h0, mul_zero] at h1
      simp [nmod] at h1

end Sys2Proof.Machine
end

