-- ==== Sys2Proof/Laws/Flags.lean ====
section
/-! SUPPORT. The `STATUS` words of 10_state.md R27 and their fields. -/

namespace Sys2Proof.Machine

theorem successStatus_one : successStatus 1#3 = 0x00000020#32 := by decide

theorem successStatus_two : successStatus 2#3 = 0x00000040#32 := by decide

theorem successStatus_four : successStatus 4#3 = 0x00000080#32 := by decide

theorem noneStatus_eq : noneStatus = 0x00000010#32 := by decide

/-- The status of an error is its code, zero-extended (R143). -/
theorem errorStatus_eq (e : ErrorKind) : errorStatus e = e.code.setWidth 32 := by cases e <;> decide

/-- Codes and kinds are one to one (60_exceptions.md R140). -/
@[simp] theorem ErrorKind.ofCode_code (e : ErrorKind) : ErrorKind.ofCode e.code = some e := by cases e <;> decide

/-- The `ERR` field of an error's status gives the error back (R140, R143). -/
@[simp] theorem statusErr_errorStatus (e : ErrorKind) : statusErr (errorStatus e) = e.code := by cases e <;> decide

/-- A success or a none carries no error code (R27). -/
theorem statusErr_successStatus (n : BitVec 3) : statusErr (successStatus n) = 0#4 := by revert n; decide

end Sys2Proof.Machine
end

