-- ==== Sys2Proof/Laws/State.lean ====
section
/-! SUPPORT. The small lemmas of the state's updates: one per field per update, all true by rfl, and the read-after-write
laws of the registers. -/

namespace Sys2Proof.Machine

section Deliver
variable (s : State) (x0 x1 x2 x3 st : Word)
@[simp] theorem State.deliver_status : (s.deliver x0 x1 x2 x3 st).status = st := rfl
@[simp] theorem State.deliver_a : (s.deliver x0 x1 x2 x3 st).a = s.a := rfl
@[simp] theorem State.deliver_m : (s.deliver x0 x1 x2 x3 st).m = s.m := rfl
@[simp] theorem State.deliver_ma0 : (s.deliver x0 x1 x2 x3 st).ma0 = s.ma0 := rfl
@[simp] theorem State.deliver_ma1 : (s.deliver x0 x1 x2 x3 st).ma1 = s.ma1 := rfl
@[simp] theorem State.deliver_ma2 : (s.deliver x0 x1 x2 x3 st).ma2 = s.ma2 := rfl
@[simp] theorem State.deliver_ma3 : (s.deliver x0 x1 x2 x3 st).ma3 = s.ma3 := rfl
@[simp] theorem State.deliver_mb0 : (s.deliver x0 x1 x2 x3 st).mb0 = s.mb0 := rfl
@[simp] theorem State.deliver_mb1 : (s.deliver x0 x1 x2 x3 st).mb1 = s.mb1 := rfl
@[simp] theorem State.deliver_mb2 : (s.deliver x0 x1 x2 x3 st).mb2 = s.mb2 := rfl
@[simp] theorem State.deliver_mb3 : (s.deliver x0 x1 x2 x3 st).mb3 = s.mb3 := rfl
@[simp] theorem State.deliver_v0 : (s.deliver x0 x1 x2 x3 st).v0 = s.v0 := rfl
@[simp] theorem State.deliver_v1 : (s.deliver x0 x1 x2 x3 st).v1 = s.v1 := rfl
@[simp] theorem State.deliver_np : (s.deliver x0 x1 x2 x3 st).np = s.np := rfl
@[simp] theorem State.deliver_nc : (s.deliver x0 x1 x2 x3 st).nc = s.nc := rfl
@[simp] theorem State.deliver_r0 : (s.deliver x0 x1 x2 x3 st).r0 = x0 := rfl
@[simp] theorem State.deliver_r1 : (s.deliver x0 x1 x2 x3 st).r1 = x1 := rfl
@[simp] theorem State.deliver_r2 : (s.deliver x0 x1 x2 x3 st).r2 = x2 := rfl
@[simp] theorem State.deliver_r3 : (s.deliver x0 x1 x2 x3 st).r3 = x3 := rfl
@[simp] theorem State.deliver_pending : (s.deliver x0 x1 x2 x3 st).pending = s.pending := rfl
@[simp] theorem State.deliver_responses : (s.deliver x0 x1 x2 x3 st).responses = s.responses := rfl

/-- A later command leaves nothing of an earlier one (R29). -/
@[simp] theorem State.deliver_deliver (y0 y1 y2 y3 su : Word) :
    (s.deliver y0 y1 y2 y3 su).deliver x0 x1 x2 x3 st = s.deliver x0 x1 x2 x3 st := rfl

end Deliver

section Ends
variable (s : State) (n : Int) (v : Digraph) (k : Matrix2) (e : ErrorKind)

@[simp] theorem State.return1_r0 : (s.return1 n).r0 = word n := rfl
@[simp] theorem State.return1_r1 : (s.return1 n).r1 = 0x00000000#32 := rfl
@[simp] theorem State.return1_r2 : (s.return1 n).r2 = 0x00000000#32 := rfl
@[simp] theorem State.return1_r3 : (s.return1 n).r3 = 0x00000000#32 := rfl
@[simp] theorem State.return1_status : (s.return1 n).status = successStatus 1#3 := rfl
@[simp] theorem State.return2_r0 : (s.return2 v).r0 = word v.x := rfl
@[simp] theorem State.return2_r1 : (s.return2 v).r1 = word v.y := rfl
@[simp] theorem State.return2_r2 : (s.return2 v).r2 = 0x00000000#32 := rfl
@[simp] theorem State.return2_r3 : (s.return2 v).r3 = 0x00000000#32 := rfl
@[simp] theorem State.return2_status : (s.return2 v).status = successStatus 2#3 := rfl
@[simp] theorem State.return4_r0 : (s.return4 k).r0 = word k.a := rfl
@[simp] theorem State.return4_r1 : (s.return4 k).r1 = word k.b := rfl
@[simp] theorem State.return4_r2 : (s.return4 k).r2 = word k.c := rfl
@[simp] theorem State.return4_r3 : (s.return4 k).r3 = word k.d := rfl
@[simp] theorem State.return4_status : (s.return4 k).status = successStatus 4#3 := rfl
@[simp] theorem State.raise_r0 : (s.raise e).r0 = 0x00000000#32 := rfl
@[simp] theorem State.raise_r1 : (s.raise e).r1 = 0x00000000#32 := rfl
@[simp] theorem State.raise_r2 : (s.raise e).r2 = 0x00000000#32 := rfl
@[simp] theorem State.raise_r3 : (s.raise e).r3 = 0x00000000#32 := rfl
@[simp] theorem State.raise_status : (s.raise e).status = errorStatus e := rfl
@[simp] theorem State.returnNone_r0 : s.returnNone.r0 = 0x00000000#32 := rfl
@[simp] theorem State.returnNone_r1 : s.returnNone.r1 = 0x00000000#32 := rfl
@[simp] theorem State.returnNone_r2 : s.returnNone.r2 = 0x00000000#32 := rfl
@[simp] theorem State.returnNone_r3 : s.returnNone.r3 = 0x00000000#32 := rfl
@[simp] theorem State.returnNone_status : s.returnNone.status = noneStatus := rfl

end Ends

section Record
variable (s : State) (r : Option Response)
@[simp] theorem State.record_status : (s.record r).status = s.status := rfl
@[simp] theorem State.record_a : (s.record r).a = s.a := rfl
@[simp] theorem State.record_m : (s.record r).m = s.m := rfl
@[simp] theorem State.record_ma0 : (s.record r).ma0 = s.ma0 := rfl
@[simp] theorem State.record_ma1 : (s.record r).ma1 = s.ma1 := rfl
@[simp] theorem State.record_ma2 : (s.record r).ma2 = s.ma2 := rfl
@[simp] theorem State.record_ma3 : (s.record r).ma3 = s.ma3 := rfl
@[simp] theorem State.record_mb0 : (s.record r).mb0 = s.mb0 := rfl
@[simp] theorem State.record_mb1 : (s.record r).mb1 = s.mb1 := rfl
@[simp] theorem State.record_mb2 : (s.record r).mb2 = s.mb2 := rfl
@[simp] theorem State.record_mb3 : (s.record r).mb3 = s.mb3 := rfl
@[simp] theorem State.record_v0 : (s.record r).v0 = s.v0 := rfl
@[simp] theorem State.record_v1 : (s.record r).v1 = s.v1 := rfl
@[simp] theorem State.record_np : (s.record r).np = s.np := rfl
@[simp] theorem State.record_nc : (s.record r).nc = s.nc := rfl
@[simp] theorem State.record_r0 : (s.record r).r0 = s.r0 := rfl
@[simp] theorem State.record_r1 : (s.record r).r1 = s.r1 := rfl
@[simp] theorem State.record_r2 : (s.record r).r2 = s.r2 := rfl
@[simp] theorem State.record_r3 : (s.record r).r3 = s.r3 := rfl
@[simp] theorem State.record_pending : (s.record r).pending = s.pending := rfl
@[simp] theorem State.record_responses : (s.record r).responses = s.responses ++ r.toList := rfl

end Record

section Host
variable (s : State) (ts : List Transaction) (rs : List Response)

@[simp] theorem State.withPending_status : (s.withPending ts).status = s.status := rfl
@[simp] theorem State.withPending_a : (s.withPending ts).a = s.a := rfl
@[simp] theorem State.withPending_m : (s.withPending ts).m = s.m := rfl
@[simp] theorem State.withPending_ma0 : (s.withPending ts).ma0 = s.ma0 := rfl
@[simp] theorem State.withPending_ma1 : (s.withPending ts).ma1 = s.ma1 := rfl
@[simp] theorem State.withPending_ma2 : (s.withPending ts).ma2 = s.ma2 := rfl
@[simp] theorem State.withPending_ma3 : (s.withPending ts).ma3 = s.ma3 := rfl
@[simp] theorem State.withPending_mb0 : (s.withPending ts).mb0 = s.mb0 := rfl
@[simp] theorem State.withPending_mb1 : (s.withPending ts).mb1 = s.mb1 := rfl
@[simp] theorem State.withPending_mb2 : (s.withPending ts).mb2 = s.mb2 := rfl
@[simp] theorem State.withPending_mb3 : (s.withPending ts).mb3 = s.mb3 := rfl
@[simp] theorem State.withPending_v0 : (s.withPending ts).v0 = s.v0 := rfl
@[simp] theorem State.withPending_v1 : (s.withPending ts).v1 = s.v1 := rfl
@[simp] theorem State.withPending_np : (s.withPending ts).np = s.np := rfl
@[simp] theorem State.withPending_nc : (s.withPending ts).nc = s.nc := rfl
@[simp] theorem State.withPending_r0 : (s.withPending ts).r0 = s.r0 := rfl
@[simp] theorem State.withPending_r1 : (s.withPending ts).r1 = s.r1 := rfl
@[simp] theorem State.withPending_r2 : (s.withPending ts).r2 = s.r2 := rfl
@[simp] theorem State.withPending_r3 : (s.withPending ts).r3 = s.r3 := rfl
@[simp] theorem State.withPending_pending : (s.withPending ts).pending = ts := rfl
@[simp] theorem State.withPending_responses : (s.withPending ts).responses = s.responses := rfl

@[simp] theorem State.withResponses_status : (s.withResponses rs).status = s.status := rfl
@[simp] theorem State.withResponses_a : (s.withResponses rs).a = s.a := rfl
@[simp] theorem State.withResponses_m : (s.withResponses rs).m = s.m := rfl
@[simp] theorem State.withResponses_ma0 : (s.withResponses rs).ma0 = s.ma0 := rfl
@[simp] theorem State.withResponses_ma1 : (s.withResponses rs).ma1 = s.ma1 := rfl
@[simp] theorem State.withResponses_ma2 : (s.withResponses rs).ma2 = s.ma2 := rfl
@[simp] theorem State.withResponses_ma3 : (s.withResponses rs).ma3 = s.ma3 := rfl
@[simp] theorem State.withResponses_mb0 : (s.withResponses rs).mb0 = s.mb0 := rfl
@[simp] theorem State.withResponses_mb1 : (s.withResponses rs).mb1 = s.mb1 := rfl
@[simp] theorem State.withResponses_mb2 : (s.withResponses rs).mb2 = s.mb2 := rfl
@[simp] theorem State.withResponses_mb3 : (s.withResponses rs).mb3 = s.mb3 := rfl
@[simp] theorem State.withResponses_v0 : (s.withResponses rs).v0 = s.v0 := rfl
@[simp] theorem State.withResponses_v1 : (s.withResponses rs).v1 = s.v1 := rfl
@[simp] theorem State.withResponses_np : (s.withResponses rs).np = s.np := rfl
@[simp] theorem State.withResponses_nc : (s.withResponses rs).nc = s.nc := rfl
@[simp] theorem State.withResponses_r0 : (s.withResponses rs).r0 = s.r0 := rfl
@[simp] theorem State.withResponses_r1 : (s.withResponses rs).r1 = s.r1 := rfl
@[simp] theorem State.withResponses_r2 : (s.withResponses rs).r2 = s.r2 := rfl
@[simp] theorem State.withResponses_r3 : (s.withResponses rs).r3 = s.r3 := rfl
@[simp] theorem State.withResponses_pending : (s.withResponses rs).pending = s.pending := rfl
@[simp] theorem State.withResponses_responses : (s.withResponses rs).responses = rs := rfl

@[simp] theorem State.withPending_withPending (us : List Transaction) :
    (s.withPending ts).withPending us = s.withPending us := rfl

@[simp] theorem State.withResponses_withResponses (us : List Response) :
    (s.withResponses rs).withResponses us = s.withResponses us := rfl

/-- The host's side is no register (R34). -/
@[simp] theorem State.readReg_withPending (r : Reg) : (s.withPending ts).readReg r = s.readReg r := by cases r <;> rfl

@[simp] theorem State.readReg_withResponses (r : Reg) : (s.withResponses rs).readReg r = s.readReg r := by cases r <;> rfl

end Host

section Reset
variable (s : State)
@[simp] theorem State.resetRegisters_status : s.resetRegisters.status = 0x00000000#32 := rfl
@[simp] theorem State.resetRegisters_a : s.resetRegisters.a = 0x00000000#32 := rfl
@[simp] theorem State.resetRegisters_m : s.resetRegisters.m = Config.resetModulus := rfl
@[simp] theorem State.resetRegisters_ma0 : s.resetRegisters.ma0 = 0x00000000#32 := rfl
@[simp] theorem State.resetRegisters_ma1 : s.resetRegisters.ma1 = 0x00000000#32 := rfl
@[simp] theorem State.resetRegisters_ma2 : s.resetRegisters.ma2 = 0x00000000#32 := rfl
@[simp] theorem State.resetRegisters_ma3 : s.resetRegisters.ma3 = 0x00000000#32 := rfl
@[simp] theorem State.resetRegisters_mb0 : s.resetRegisters.mb0 = 0x00000000#32 := rfl
@[simp] theorem State.resetRegisters_mb1 : s.resetRegisters.mb1 = 0x00000000#32 := rfl
@[simp] theorem State.resetRegisters_mb2 : s.resetRegisters.mb2 = 0x00000000#32 := rfl
@[simp] theorem State.resetRegisters_mb3 : s.resetRegisters.mb3 = 0x00000000#32 := rfl
@[simp] theorem State.resetRegisters_v0 : s.resetRegisters.v0 = 0x00000000#32 := rfl
@[simp] theorem State.resetRegisters_v1 : s.resetRegisters.v1 = 0x00000000#32 := rfl
@[simp] theorem State.resetRegisters_np : s.resetRegisters.np = 0x00000000#32 := rfl
@[simp] theorem State.resetRegisters_nc : s.resetRegisters.nc = 0x00000000#32 := rfl
@[simp] theorem State.resetRegisters_r0 : s.resetRegisters.r0 = 0x00000000#32 := rfl
@[simp] theorem State.resetRegisters_r1 : s.resetRegisters.r1 = 0x00000000#32 := rfl
@[simp] theorem State.resetRegisters_r2 : s.resetRegisters.r2 = 0x00000000#32 := rfl
@[simp] theorem State.resetRegisters_r3 : s.resetRegisters.r3 = 0x00000000#32 := rfl
@[simp] theorem State.resetRegisters_pending : s.resetRegisters.pending = s.pending := rfl
@[simp] theorem State.resetRegisters_responses : s.resetRegisters.responses = s.responses := rfl

end Reset

section Read
variable (s : State)

@[simp] theorem State.readReg_cmd : s.readReg .cmd = 0x00000000#32 := rfl
@[simp] theorem State.readReg_status : s.readReg .status = s.status := rfl
@[simp] theorem State.readReg_a : s.readReg .a = s.a := rfl
@[simp] theorem State.readReg_m : s.readReg .m = s.m := rfl
@[simp] theorem State.readReg_ma0 : s.readReg .ma0 = s.ma0 := rfl
@[simp] theorem State.readReg_ma1 : s.readReg .ma1 = s.ma1 := rfl
@[simp] theorem State.readReg_ma2 : s.readReg .ma2 = s.ma2 := rfl
@[simp] theorem State.readReg_ma3 : s.readReg .ma3 = s.ma3 := rfl
@[simp] theorem State.readReg_mb0 : s.readReg .mb0 = s.mb0 := rfl
@[simp] theorem State.readReg_mb1 : s.readReg .mb1 = s.mb1 := rfl
@[simp] theorem State.readReg_mb2 : s.readReg .mb2 = s.mb2 := rfl
@[simp] theorem State.readReg_mb3 : s.readReg .mb3 = s.mb3 := rfl
@[simp] theorem State.readReg_v0 : s.readReg .v0 = s.v0 := rfl
@[simp] theorem State.readReg_v1 : s.readReg .v1 = s.v1 := rfl
@[simp] theorem State.readReg_np : s.readReg .np = s.np := rfl
@[simp] theorem State.readReg_nc : s.readReg .nc = s.nc := rfl
@[simp] theorem State.readReg_r0 : s.readReg .r0 = s.r0 := rfl
@[simp] theorem State.readReg_r1 : s.readReg .r1 = s.r1 := rfl
@[simp] theorem State.readReg_r2 : s.readReg .r2 = s.r2 := rfl
@[simp] theorem State.readReg_r3 : s.readReg .r3 = s.r3 := rfl

end Read

section Write
variable (s : State) (v : Word) (r : Reg)

@[simp] theorem State.writeReg_status : (s.writeReg v r).status = s.status := by cases r <;> rfl
@[simp] theorem State.writeReg_r0 : (s.writeReg v r).r0 = s.r0 := by cases r <;> rfl
@[simp] theorem State.writeReg_r1 : (s.writeReg v r).r1 = s.r1 := by cases r <;> rfl
@[simp] theorem State.writeReg_r2 : (s.writeReg v r).r2 = s.r2 := by cases r <;> rfl
@[simp] theorem State.writeReg_r3 : (s.writeReg v r).r3 = s.r3 := by cases r <;> rfl
@[simp] theorem State.writeReg_pending : (s.writeReg v r).pending = s.pending := by cases r <;> rfl
@[simp] theorem State.writeReg_responses : (s.writeReg v r).responses = s.responses := by cases r <;> rfl

/-- A written operand register reads as what was written (R21). -/
theorem State.readReg_writeReg_self (h : r ∈ operandRegs) : (s.writeReg v r).readReg r = v := by
  cases r <;> first | rfl | simp [operandRegs] at h

/-- A write leaves every other register alone (R44). -/
theorem State.readReg_writeReg_ne {q : Reg} (h : q ≠ r) : (s.writeReg v r).readReg q = s.readReg q := by
  cases r <;> cases q <;> first | rfl | exact absurd rfl h

/-- A write to `CMD`, `STATUS` or a result register stores nothing (R25, R46). -/
theorem State.writeReg_of_not_operand (h : r ∉ operandRegs) : s.writeReg v r = s := by
  cases r <;> first | rfl | simp [operandRegs] at h

end Write

/-- The register at a register's index is that register (R20). -/
@[simp] theorem Reg.ofIndex_index (r : Reg) : Reg.ofIndex r.index = some r := by cases r <;> rfl

/-- No register lies above 0x13 (R45). -/
theorem Reg.ofIndex_eq_none_iff (i : Index) : Reg.ofIndex i = none ↔ Config.lastIndex < i := by
  revert i; decide

/-- A mapped index is the index of the register found there (R20). -/
theorem Reg.index_of_ofIndex {i : Index} {r : Reg} (h : Reg.ofIndex i = some r) : r.index = i := by
  revert i r; decide +revert

end Sys2Proof.Machine
end

