-- ==== Sys2Proof/Laws/Commands.lean ====
section
/-! SUPPORT. What the matrix operations answer, and the ways a command ends (10_state.md R30, R31, R143): the inversion
lemmas of the commands and of the port. -/

namespace Sys2Proof.Machine

/-- Every entry is a Residue (R13). -/
abbrev Matrix2.isReduced (k : Matrix2) : Prop :=
  (0 ≤ k.a ∧ k.a < 26) ∧ (0 ≤ k.b ∧ k.b < 26) ∧ (0 ≤ k.c ∧ k.c < 26) ∧ (0 ≤ k.d ∧ k.d < 26)

/-- Both elements are Residues (R12). -/
abbrev Digraph.isReduced (v : Digraph) : Prop := (0 ≤ v.x ∧ v.x < 26) ∧ (0 ≤ v.y ∧ v.y < 26)

theorem nmod_modulus_range (n : Int) : 0 ≤ nmod n Config.modulus ∧ nmod n Config.modulus < 26 :=
  ⟨nmod_nonneg n (by decide), nmod_lt n (by decide)⟩

theorem Matrix2.adjugate_isReduced (k : Matrix2) : k.adjugate.isReduced :=
  ⟨nmod_modulus_range _, nmod_modulus_range _, nmod_modulus_range _, nmod_modulus_range _⟩

theorem Matrix2.mul_isReduced (k l : Matrix2) : (k.mul l).isReduced :=
  ⟨nmod_modulus_range _, nmod_modulus_range _, nmod_modulus_range _, nmod_modulus_range _⟩

theorem Matrix2.mulVec_isReduced (k : Matrix2) (v : Digraph) : (k.mulVec v).isReduced :=
  ⟨nmod_modulus_range _, nmod_modulus_range _⟩

/-- A matrix has an inverse exactly when its determinant has one modulo 26 (R17, R98). -/
theorem Matrix2.inverse_eq_none_iff (k : Matrix2) :
    k.inverse = none ↔ modInverse k.determinant Config.modulus = none := by
  unfold Matrix2.inverse
  cases modInverse k.determinant Config.modulus <;> simp

/-- The inverse, when there is one: the determinant's inverse times the adjugate, entry by entry (R98). -/
theorem Matrix2.inverse_eq_some_iff (k q : Matrix2) :
    k.inverse = some q ↔ ∃ i, modInverse k.determinant Config.modulus = some i ∧
      q = ⟨nmod (i * k.d) Config.modulus, nmod (i * -k.b) Config.modulus,
           nmod (i * -k.c) Config.modulus, nmod (i * k.a) Config.modulus⟩ := by
  unfold Matrix2.inverse
  cases modInverse k.determinant Config.modulus with
  | none => simp
  | some i => simp [eq_comm]

theorem Matrix2.inverse_isReduced {k q : Matrix2} (h : k.inverse = some q) : q.isReduced := by
  obtain ⟨i, -, rfl⟩ := (k.inverse_eq_some_iff q).mp h
  exact ⟨nmod_modulus_range _, nmod_modulus_range _, nmod_modulus_range _, nmod_modulus_range _⟩

/-- What a host reads after `return1` of a number that fits a word (R30). -/
theorem State.return1_holds (s : State) {n : Int} (h0 : 0 ≤ n) (h1 : n < 2 ^ 32) :
    (s.return1 n).holds n 0 0 0 0x00000020#32 :=
  ⟨uint_word h0 h1, rfl, rfl, rfl, successStatus_one⟩

/-- What a host reads after `return2` of a digraph of Residues (R30). -/
theorem State.return2_holds (s : State) {v : Digraph} (h : v.isReduced) :
    (s.return2 v).holds v.x v.y 0 0 0x00000040#32 :=
  ⟨uint_word h.1.1 (h.1.2.trans (by decide)), uint_word h.2.1 (h.2.2.trans (by decide)), rfl, rfl, successStatus_two⟩

/-- What a host reads after `return4` of a matrix of Residues (R30). -/
theorem State.return4_holds (s : State) {k : Matrix2} (h : k.isReduced) :
    (s.return4 k).holds k.a k.b k.c k.d 0x00000080#32 :=
  ⟨uint_word h.1.1 (h.1.2.trans (by decide)), uint_word h.2.1.1 (h.2.1.2.trans (by decide)),
    uint_word h.2.2.1.1 (h.2.2.1.2.trans (by decide)), uint_word h.2.2.2.1 (h.2.2.2.2.trans (by decide)),
    successStatus_four⟩

/-- What a host reads after `return_none` (R31). -/
theorem State.returnNone_holds (s : State) : s.returnNone.holds 0 0 0 0 0x00000010#32 :=
  ⟨rfl, rfl, rfl, rfl, noneStatus_eq⟩

/-- What a host reads after an error (R143). -/
theorem State.raise_holds (s : State) (e : ErrorKind) : (s.raise e).holds 0 0 0 0 (e.code.setWidth 32) :=
  ⟨rfl, rfl, rfl, rfl, errorStatus_eq e⟩

/-- The five ways a command can end (R27, R30, R31, R143). -/
inductive CommandEnd (s : State) : State → Prop where
  | one (n : Int) (h0 : 0 ≤ n) (h1 : n ≤ 2 ^ 31 - 2) : CommandEnd s (s.return1 n)
  | two (v : Digraph) (h : v.isReduced) : CommandEnd s (s.return2 v)
  | four (k : Matrix2) (h : k.isReduced) : CommandEnd s (s.return4 k)
  | none : CommandEnd s s.returnNone
  | error (e : ErrorKind) : CommandEnd s (s.raise e)

/-- What a command can do, said once: it answers a next state, in one of the five ways. -/
theorem exec_end (i : Instr) (s : State) : ∃ t, exec i s = .next t ∧ CommandEnd s t := by
  cases i with
  | modinv =>
    show ∃ t, execModinv s = .next t ∧ _
    unfold execModinv
    simp only
    split
    · exact ⟨_, rfl, .error _⟩
    · next hm =>
      split
      · exact ⟨_, rfl, .none⟩
      · next i hi =>
        have h := (modInverse_eq_some_iff (by omega)).mp hi
        have := sint_lt s.m
        exact ⟨_, rfl, .one i (by omega) (by omega)⟩
  | mulv => exact ⟨_, rfl, .two _ (Matrix2.mulVec_isReduced _ _)⟩
  | det =>
    have h := nmod_modulus_range (s.matrixMA.a * s.matrixMA.d - s.matrixMA.b * s.matrixMA.c)
    exact ⟨_, rfl, .one _ h.1 (h.2.le.trans (by decide))⟩
  | adj => exact ⟨_, rfl, .four _ (Matrix2.adjugate_isReduced _)⟩
  | inv =>
    show ∃ t, execInv s = .next t ∧ _
    unfold execInv
    split
    · exact ⟨_, rfl, .error _⟩
    · next h => exact ⟨_, rfl, .four _ (Matrix2.inverse_isReduced h)⟩
  | mulm => exact ⟨_, rfl, .four _ (Matrix2.mul_isReduced _ _)⟩
  | solve =>
    show ∃ t, execSolve s = .next t ∧ _
    unfold execSolve
    simp only
    split
    · exact ⟨_, rfl, .error _⟩
    split
    · exact ⟨_, rfl, .error _⟩
    split
    · exact ⟨_, rfl, .error _⟩
    split
    · exact ⟨_, rfl, .error _⟩
    · exact ⟨_, rfl, .four _ (Matrix2.mul_isReduced _ _)⟩

/-- What a word written to `CMD` can do (R61, R63). -/
theorem runCommandWord_end (w : Word) (s : State) : ∃ t, runCommandWord w s = .next t ∧ CommandEnd s t := by
  unfold runCommandWord
  split
  · exact exec_end _ s
  · exact ⟨_, rfl, .error _⟩

/-- Whatever its end, a command has written only the results and `STATUS` (R29). -/
theorem CommandEnd.deliver {s t : State} (h : CommandEnd s t) :
    t = s.deliver t.r0 t.r1 t.r2 t.r3 t.status := by
  cases h <;> rfl

/-- What serving a transaction can do, said once (R43 to R46, R160). -/
theorem serve_cases (t : Transaction) (s : State) :
    (∃ i, t = .regRead i ∧ serve t s = .next (s, some (s.readResponse i))) ∨
    (∃ i v, t = .regWrite i v ∧ Config.lastIndex < i ∧ serve t s = .next (s, some .busError)) ∨
    (∃ w u, t = .regWrite Config.cmdIndex w ∧ runCommandWord w s = .next u ∧ CommandEnd s u ∧
      serve t s = .next (u, some .ok)) ∨
    (∃ r v, t = .regWrite r.index v ∧ r ≠ .cmd ∧ serve t s = .next (s.writeReg v r, some .ok)) ∨
    (t = .reset ∧ serve t s = .next (s.resetRegisters, none)) := by
  cases t with
  | regRead i => exact .inl ⟨i, rfl, rfl⟩
  | reset => exact .inr (.inr (.inr (.inr ⟨rfl, rfl⟩)))
  | regWrite i v =>
    right
    cases hr : Reg.ofIndex i with
    | none =>
      exact .inl ⟨i, v, rfl, (Reg.ofIndex_eq_none_iff i).mp hr, by simp [serve, serveWrite, hr]⟩
    | some r =>
      obtain rfl := Reg.index_of_ofIndex hr
      by_cases hc : r = .cmd
      · subst hc
        obtain ⟨u, hu, he⟩ := runCommandWord_end v s
        exact .inr (.inl ⟨v, u, rfl, hu, he, by simp [serve, serveWrite, hr, hu, andThen]⟩)
      · refine .inr (.inr (.inl ⟨r, v, rfl, hc, ?_⟩))
        cases r <;> first | exact absurd rfl hc | rfl

/-- A transaction leaves the host's side of the port alone: the step alone moves it. -/
theorem serve_host {t : Transaction} {s u : State} {r : Option Response} (h : serve t s = .next (u, r)) :
    u.pending = s.pending ∧ u.responses = s.responses := by
  rcases serve_cases t s with ⟨i, -, h'⟩ | ⟨i, v, -, -, h'⟩ | ⟨w, u', -, -, he, h'⟩ | ⟨q, v, -, -, h'⟩ | ⟨-, h'⟩ <;>
    rw [h'] at h <;> cases h
  · exact ⟨rfl, rfl⟩
  · exact ⟨rfl, rfl⟩
  · rw [he.deliver]; exact ⟨rfl, rfl⟩
  · simp
  · exact ⟨rfl, rfl⟩

/-- A function of the machine's state that neither reads nor writes the host's side of the port. -/
abbrev ignoresHost (f : State → Result State) : Prop :=
  ∀ (s : State) (ts : List Transaction) (rs : List Response),
    f (s.withPending ts) = andThen (f s) (fun t => .next (t.withPending ts)) ∧
    f (s.withResponses rs) = andThen (f s) (fun t => .next (t.withResponses rs))

/-- No command sees the host's side of the port (R34). -/
theorem exec_ignoresHost (i : Instr) : ignoresHost (exec i) := by
  intro s ts rs
  cases i with
  | mulv | det | adj | mulm => exact ⟨rfl, rfl⟩
  | modinv =>
    show execModinv _ = andThen (execModinv s) _ ∧ execModinv _ = andThen (execModinv s) _
    simp only [execModinv, State.withPending_a, State.withPending_m, State.withResponses_a, State.withResponses_m]
    by_cases h : sint s.m ≤ 0
    · simp only [h, ↓reduceIte]; exact ⟨rfl, rfl⟩
    · simp only [h, ↓reduceIte]; cases modInverse (sint s.a) (sint s.m) <;> exact ⟨rfl, rfl⟩
  | inv =>
    show execInv _ = andThen (execInv s) _ ∧ execInv _ = andThen (execInv s) _
    have h1 : (s.withPending ts).matrixMA = s.matrixMA := rfl
    have h2 : (s.withResponses rs).matrixMA = s.matrixMA := rfl
    simp only [execInv, h1, h2]
    cases s.matrixMA.inverse <;> exact ⟨rfl, rfl⟩
  | solve =>
    show execSolve _ = andThen (execSolve s) _ ∧ execSolve _ = andThen (execSolve s) _
    have h1 : (s.withPending ts).plaintextP = s.plaintextP := rfl
    have h2 : (s.withResponses rs).plaintextP = s.plaintextP := rfl
    simp only [execSolve, h1, h2, State.withPending_np, State.withPending_nc, State.withResponses_np,
      State.withResponses_nc]
    by_cases c1 : uint s.np = uint s.nc
    · by_cases c2 : uint s.nc < 4
      · simp only [c1, c2, ne_eq, not_true_eq_false, ↓reduceIte]; exact ⟨rfl, rfl⟩
      by_cases c3 : uint s.nc % 2 = 1
      · simp only [c1, c2, c3, ne_eq, not_true_eq_false, ↓reduceIte]; exact ⟨rfl, rfl⟩
      · simp only [c1, c2, c3, ne_eq, not_true_eq_false, ↓reduceIte]
        cases s.plaintextP.inverse <;> exact ⟨rfl, rfl⟩
    · simp only [c1, ne_eq, not_false_eq_true, ↓reduceIte]; exact ⟨rfl, rfl⟩

theorem runCommandWord_ignoresHost (w : Word) : ignoresHost (runCommandWord w) := by
  intro s ts rs
  unfold runCommandWord
  split
  · exact exec_ignoresHost _ s ts rs
  · exact ⟨rfl, rfl⟩

/-- Serving a transaction neither reads nor writes the host's side of the port: only a step moves it. -/
theorem serve_ignoresHost (t : Transaction) (s : State) (ts : List Transaction) (rs : List Response) :
    serve t (s.withPending ts) = andThen (serve t s) (fun p => .next (p.1.withPending ts, p.2)) ∧
    serve t (s.withResponses rs) = andThen (serve t s) (fun p => .next (p.1.withResponses rs, p.2)) := by
  cases t with
  | regRead i =>
    constructor <;> (simp only [serve, State.readResponse]; cases Reg.ofIndex i <;> simp [andThen])
  | reset => exact ⟨rfl, rfl⟩
  | regWrite i v =>
    simp only [serve, serveWrite]
    split
    · exact ⟨rfl, rfl⟩
    · obtain ⟨u, hu, -⟩ := runCommandWord_end v s
      obtain ⟨h1, h2⟩ := runCommandWord_ignoresHost v s ts rs
      rw [h1, h2, hu]
      exact ⟨rfl, rfl⟩
    · next r _ _ => cases r <;> exact ⟨rfl, rfl⟩

/-- Serving always answers a next state (60_exceptions.md R148). -/
theorem serve_next (t : Transaction) (s : State) : ∃ u r, serve t s = .next (u, r) := by
  rcases serve_cases t s with ⟨i, -, h⟩ | ⟨i, v, -, -, h⟩ | ⟨w, u, -, -, -, h⟩ | ⟨q, v, -, -, h⟩ | ⟨-, h⟩ <;>
    exact ⟨_, _, h⟩

/-- What a step can do, said once: nothing pending and nothing done, or the next transaction served and its response
recorded. -/
theorem step_cases (s : State) :
    (s.pending = [] ∧ step s = .next s) ∨
    (∃ t ts u r, s.pending = t :: ts ∧ serve t (s.withPending ts) = .next (u, r) ∧
      step s = .next (u.record r)) := by
  cases hp : s.pending with
  | nil => exact .inl ⟨rfl, by simp [step, takeTransaction, hp]⟩
  | cons t ts =>
    obtain ⟨u, r, h⟩ := serve_next t (s.withPending ts)
    exact .inr ⟨t, ts, u, r, rfl, h, by simp [step, takeTransaction, hp, h, andThen]⟩

/-- A function that unfolds as a machine's run unfolds is that run. -/
theorem run_unique (M : Host.Core) (f : Nat → M.State → Host.Outcome M.State M.Fault M.Refusal)
    (h0 : ∀ s, f 0 s = .next s)
    (h1 : ∀ k s, (∃ t, M.step s = .next t ∧ f (k + 1) s = f k t) ∨ (∃ r, M.step s = .fault r ∧ f (k + 1) s = .fault r) ∨
      (∃ r, M.step s = .refused r ∧ f (k + 1) s = .refused r)) (k : Nat) (s : M.State) : f k s = M.run k s := by
  induction k generalizing s with
  | zero => exact h0 s
  | succ k ih =>
    rw [Host.Core.run]
    rcases h1 k s with ⟨t, hs, hf⟩ | ⟨r, hs, hf⟩ | ⟨r, hs, hf⟩ <;> rw [hs, hf]
    exact ih t

/-- After a step that answers `t`, a run goes on from `t`. -/
theorem steps_succ {k : Nat} {s t : State} (h : step s = .next t) : steps (k + 1) s = steps k t := by
  rw [steps, h]
  rfl

/-- `steps` is the host's own run of the machine. -/
theorem steps_eq_core_run (k : Nat) (s : State) : steps k s = Sys2Proof.core.run k s := by
  refine run_unique Sys2Proof.core steps (fun _ => rfl) (fun k s => ?_) k s
  rcases step_cases s with ⟨-, h⟩ | ⟨-, -, u, r, -, -, h⟩
  · exact .inl ⟨s, h, steps_succ h⟩
  · exact .inl ⟨u.record r, h, steps_succ h⟩

end Sys2Proof.Machine
end

