-- ==== Sys2Proof/Laws/Host.lean ====
section
/-! SUPPORT. What the host's transactions do, said once each (45_host_software.md R120 to R129): the loads, one digraph,
the loop over digraphs, and the letter codec. -/

namespace Sys2Proof.Machine

/-- A host's write of an operand register (20_memory.md R44). -/
theorem serve_writeTo {r : Reg} (h : r ∈ operandRegs) (v : Word) (s : State) :
    serve (writeTo r v) s = .next (s.writeReg v r, some .ok) := by
  cases r <;> first | rfl | simp [operandRegs] at h

/-- A host's read of a register (R43). -/
theorem serve_readFrom (r : Reg) (s : State) : serve (readFrom r) s = .next (s, some (.value (s.readReg r))) := by
  simp [serve, readFrom, State.readResponse]

/-- A word written to `CMD` decodes to the command that encodes to it (30_encoding.md R62). -/
theorem decode_encode (i : Instr) : decode (encode i) = .ok i := by cases i <;> rfl

/-- A host's command (R61, R69). -/
theorem serve_issue {i : Instr} {s t : State} (h : exec i s = .next t) : serve (issue i) s = .next (t, some .ok) := by
  have hc : Reg.ofIndex Config.cmdIndex = some .cmd := rfl
  simp [serve, issue, serveWrite, hc, runCommandWord, decode_encode, h, andThen]

/-- The transactions after the first go on from the state it leaves (R53). -/
theorem serveAll_cons {t : Transaction} {ts : List Transaction} {s u v : State} {r : Option Response}
    {rs : List Response} (h : serve t s = .next (u, r)) (h' : serveAll ts u = .next (v, rs)) :
    serveAll (t :: ts) s = .next (v, r.toList ++ rs) := by
  simp [serveAll, h, h', andThen]

/-- An integer that only matters modulo 26 keeps its class through the register (R23). -/
theorem residueOf_operandWord (n : Int) : residueOf (operandWord n Config.modulus) = nmod n Config.modulus := by
  have hfit : ∀ k : Int, -2 ^ 31 ≤ k → k < 2 ^ 31 → sint (word32 k) = k := by
    intro k h0 h1
    unfold sint word32
    rw [BitVec.toInt_ofInt]
    exact Int.bmod_eq_of_le (by norm_num; omega) (by norm_num; omega)
  unfold operandWord residueOf
  split
  · next h =>
    simp only [fitsRegister, Bool.and_eq_true, decide_eq_true_eq] at h
    rw [hfit n h.1 h.2]
  · have h := nmod_modulus_range n
    rw [hfit _ (by omega) (by omega), nmod_nmod]

/-- `LDMA` of a key. -/
theorem serveAll_loadKey (k : Matrix2) (s : State) :
    serveAll (loadKey k) s =
      .next (s.withMA (operandWord k.a Config.modulus) (operandWord k.b Config.modulus)
        (operandWord k.c Config.modulus) (operandWord k.d Config.modulus), [.ok, .ok, .ok, .ok]) := rfl

/-- After `LDMA` of a key, MA is the key, normalised (R131). -/
theorem matrixMA_loadKey (k : Matrix2) (s : State) :
    (s.withMA (operandWord k.a Config.modulus) (operandWord k.b Config.modulus) (operandWord k.c Config.modulus)
      (operandWord k.d Config.modulus)).matrixMA = k.normalise := by
  simp only [State.matrixMA, State.withMA, residueOf_operandWord, Matrix2.normalise]

/-- A digraph of Residues as integers. -/
def digraphOf (v : Residue × Residue) : Digraph := ⟨v.1.val, v.2.val⟩

/-- The product of a matrix and a digraph of Residues, as Residues (R92). -/
def mulResidues (k : Matrix2) (v : Residue × Residue) : List Residue :=
  [Fin.ofNat 26 (k.mulVec (digraphOf v)).x.toNat, Fin.ofNat 26 (k.mulVec (digraphOf v)).y.toNat]

/-- A Residue written to a register is read by a command as itself. -/
theorem residueOf_residueWord (r : Residue) : residueOf (residueWord r) = r.val := by
  have hw : residueWord r = word r.val := (BitVec.ofInt_natCast 32 r.val).symm
  have h0 : (0 : Int) ≤ r.val := by omega
  have h1 : (r.val : Int) < 26 := by omega
  have hs : sint (residueWord r) = r.val := by
    rw [hw]
    exact sint_word h0 (h1.trans (by norm_num))
  rw [residueOf, hs]
  exact nmod_of_range h0 h1

/-- A Residue the MIU stored is the Residue the host reads. -/
theorem wordResidue_word {n : Int} (h0 : 0 ≤ n) (h1 : n < 26) : wordResidue (word n) = Fin.ofNat 26 n.toNat := by
  have hu : uint (word n) = n := uint_word h0 (h1.trans (by norm_num))
  have hn : (word n).toNat = n.toNat := by
    generalize word n = w at hu
    unfold uint at hu
    omega
  rw [wordResidue, hn]

/-- `LDV`, `MULV` and the reads (R124, R126). -/
theorem serveAll_mulvTransactions (b : Bool) (v : Residue × Residue) (s : State) :
    serveAll (mulvTransactions b v) s =
      .next ((s.withV (residueWord v.1) (residueWord v.2)).return2 (s.matrixMA.mulVec (digraphOf v)),
        [.ok, .ok, .ok] ++ (if b then [.value 0x00000040#32] else []) ++
          [.value (word (s.matrixMA.mulVec (digraphOf v)).x), .value (word (s.matrixMA.mulVec (digraphOf v)).y)]) := by
  have hv : (s.withV (residueWord v.1) (residueWord v.2)).digraphV = digraphOf v := by
    simp only [State.digraphV, State.withV, residueOf_residueWord, digraphOf]
  have hx : exec .mulv (s.withV (residueWord v.1) (residueWord v.2)) =
      .next ((s.withV (residueWord v.1) (residueWord v.2)).return2 (s.matrixMA.mulVec (digraphOf v))) := by
    show execMulv _ = _
    unfold execMulv
    rw [hv]
    rfl
  have hr : ∀ (t : State), serveAll [readFrom .r0, readFrom .r1] t = .next (t, [.value t.r0, .value t.r1]) :=
    fun t => serveAll_cons (serve_readFrom .r0 t) (serveAll_cons (serve_readFrom .r1 t) rfl)
  have hs : ∀ (t : State) (k : Digraph), serve (readFrom .status) (t.return2 k) =
      .next (t.return2 k, some (.value 0x00000040#32)) := by
    intro t k
    rw [serve_readFrom, State.readReg_status, State.return2_status, successStatus_two]
  cases b with
  | false =>
    exact serveAll_cons (serve_writeTo (by decide) _ _) (serveAll_cons (serve_writeTo (by decide) _ _)
      (serveAll_cons (serve_issue hx) (hr _)))
  | true =>
    exact serveAll_cons (serve_writeTo (by decide) _ _) (serveAll_cons (serve_writeTo (by decide) _ _)
      (serveAll_cons (serve_issue hx) (serveAll_cons (hs _ _) (hr _))))

/-- The loop over digraphs gives each digraph's product with MA, in order, and leaves MA alone (R124, R126). -/
theorem mulvLoop_spec (b : Bool) : ∀ (vs : List (Residue × Residue)) (s : State),
    ∃ t, mulvLoop b vs s = .next (t, vs.flatMap (mulResidues s.matrixMA)) ∧ t.matrixMA = s.matrixMA := by
  intro vs
  induction vs with
  | nil => exact fun s => ⟨s, rfl, rfl⟩
  | cons v vs ih =>
    intro s
    obtain ⟨t, ht, hm⟩ := ih ((s.withV (residueWord v.1) (residueWord v.2)).return2 (s.matrixMA.mulVec (digraphOf v)))
    refine ⟨t, ?_, hm⟩
    have hr := Matrix2.mulVec_isReduced s.matrixMA (digraphOf v)
    have h1 := wordResidue_word hr.1.1 hr.1.2
    have h2 := wordResidue_word hr.2.1 hr.2.2
    rw [mulvLoop, serveAll_mulvTransactions]
    simp only [andThen]
    rw [ht]
    cases b <;>
      simp [readValue, responseValues, h1, h2, List.flatMap_cons, mulResidues] <;> rfl

/-- A short count is below 6, on the same side of 4, and of the same parity. -/
theorem shortCount_spec (n : Nat) :
    shortCount n < 6 ∧ (4 ≤ shortCount n ↔ 4 ≤ n) ∧ shortCount n % 2 = n % 2 ∧ (n < 4 → shortCount n = n) := by
  unfold shortCount
  split <;> omega

/-- What the counts the host writes keep of two lengths: their equality, on which side of 4 each lies, and each one's
parity (93_implementation_defined.md U11): all that SOLVE looks at. -/
theorem hostCounts_spec (np nc : Nat) :
    ((hostCounts np nc).1 = (hostCounts np nc).2 ↔ np = nc) ∧
    (4 ≤ (hostCounts np nc).1.toNat ↔ 4 ≤ np) ∧ (4 ≤ (hostCounts np nc).2.toNat ↔ 4 ≤ nc) ∧
    (hostCounts np nc).1.toNat % 2 = np % 2 ∧ (hostCounts np nc).2.toNat % 2 = nc % 2 := by
  have hn : ∀ k : Nat, k < 2 ^ 32 → (BitVec.ofNat 32 k).toNat = k := fun k h => by
    rw [BitVec.toNat_ofNat, Nat.mod_eq_of_lt h]
  obtain ⟨p1, p2, p3, p4⟩ := shortCount_spec np
  obtain ⟨c1, c2, c3, c4⟩ := shortCount_spec nc
  rw [← BitVec.toNat_inj]
  unfold hostCounts
  split
  · next h => rw [hn np h.1, hn nc h.2]; omega
  split
  · next h => rw [hn (shortCount np) (by omega), hn (shortCount nc + 2) (by omega)]; omega
  · next h => rw [hn (shortCount np) (by omega), hn (shortCount nc) (by omega)]; omega

/-- A Residue's letter is that Residue's (R120, R121). -/
@[simp] theorem letterResidue_residueLetter (r : Residue) : letterResidue (residueLetter r) = some r := by
  revert r; decide

/-- Letters of Residues are ASCII. -/
theorem isAscii_residuesToText (rs : List Residue) : isAscii (residuesToText rs) = true := by
  have h : ∀ r : Residue, (residueLetter r).toNat < 128 := by decide
  simp [isAscii, residuesToText, h]

/-- The codec's round trip on Residues (R121). -/
@[simp] theorem textToResidues_residuesToText (rs : List Residue) : textToResidues (residuesToText rs) = rs := by
  induction rs with
  | nil => rfl
  | cons r rs ih =>
    simp only [residuesToText, textToResidues, List.map_cons, List.filterMap_cons, letterResidue_residueLetter]
    exact congrArg (r :: ·) ih

end Sys2Proof.Machine
end

