-- ==== Sys2Proof/Laws/PerInstr.lean ====
section
/-! SUPPORT. What holds of each command as a word: one lemma per constructor of `Instr`. -/

namespace Sys2Proof.Laws.CommandWord

/-- A command is well formed, its word is legal (30_encoding.md R60), has the command's opcode in `op` and 0 in `zero`,
and decodes to the command (R62). -/
def Statement (i : Instr) : Prop :=
  i.wellFormed = true ∧ legalWord (encode i) = true ∧ zeroField (encode i) = 0 ∧ opField (encode i) = i.opcode ∧
    decode (encode i) = .ok i

theorem modinv : Statement .modinv := by unfold Statement; decide

theorem mulv : Statement .mulv := by unfold Statement; decide

theorem det : Statement .det := by unfold Statement; decide

theorem adj : Statement .adj := by unfold Statement; decide

theorem inv : Statement .inv := by unfold Statement; decide

theorem mulm : Statement .mulm := by unfold Statement; decide

theorem solve : Statement .solve := by unfold Statement; decide

end Sys2Proof.Laws.CommandWord
end

