-- ==== Sys2Proof/Machine/ScriptText.lean ====
section
/-! DEFINITION. The written form of a host script (30_encoding.md R68, R69): one statement a line, `;` begins a comment,
names are case-insensitive. What separates words, and which sign an integer may carry, is the model's choice (log
entry 14). Text is a list of characters. -/

namespace Sys2Proof.Machine

/-- A lower-case ASCII letter in upper case; any other character as it is. -/
def upperChar (c : Char) : Char := if 97 ≤ c.toNat ∧ c.toNat ≤ 122 then Char.ofNat (c.toNat - 32) else c

/-- The register names of R20, in R20's order. -/
def regNames : List (List Char × Reg) :=
  List.zip
    [['C','M','D'], ['S','T','A','T','U','S'], ['A'], ['M'], ['M','A','0'], ['M','A','1'], ['M','A','2'],
     ['M','A','3'], ['M','B','0'], ['M','B','1'], ['M','B','2'], ['M','B','3'], ['V','0'], ['V','1'], ['N','P'],
     ['N','C'], ['R','0'], ['R','1'], ['R','2'], ['R','3']]
    Reg.all

/-- The command names of R62. -/
def commandNames : List (List Char × Instr) :=
  [(['M','O','D','I','N','V'], .modinv), (['M','U','L','V'], .mulv), (['D','E','T'], .det), (['A','D','J'], .adj),
   (['I','N','V'], .inv), (['M','U','L','M'], .mulm), (['S','O','L','V','E'], .solve)]

/-- A word under construction, put before what follows it, when it has a letter. -/
def flushWord (acc : List Char) (rest : List (List Char)) : List (List Char) :=
  if acc.isEmpty then rest else acc.reverse :: rest

/-- The words of a line up to a comment: blanks separate, a comma and an equals sign are words of their own. -/
def lineWords : List Char → List Char → List (List Char)
  | [], acc => flushWord acc []
  | c :: cs, acc =>
    if c = ';' then flushWord acc []
    else if c = ' ' ∨ c = '\t' ∨ c = '\r' then flushWord acc (lineWords cs [])
    else if c = ',' ∨ c = '=' then flushWord acc ([c] :: lineWords cs [])
    else lineWords cs (upperChar c :: acc)

/-- The value of a digit in a base of at most 16. -/
def digitValue (base : Nat) (c : Char) : Option Nat :=
  let v := if 48 ≤ c.toNat ∧ c.toNat ≤ 57 then some (c.toNat - 48)
    else if 65 ≤ c.toNat ∧ c.toNat ≤ 70 then some (c.toNat - 55) else none
  match v with
  | some d => if d < base then some d else none
  | none => none

/-- The number a non-empty run of digits stands for. -/
def digitsValue (base : Nat) (cs : List Char) : Option Nat :=
  if cs.isEmpty then none
  else cs.foldl (fun acc c => match acc, digitValue base c with
    | some n, some d => some (n * base + d)
    | _, _ => none) (some 0)

/-- An unsigned `<int>`: decimal, or hexadecimal after `0x` (R68). -/
def parseNat : List Char → Option Nat
  | '0' :: 'X' :: cs => digitsValue 16 cs
  | cs => digitsValue 10 cs

/-- An `<int>` of R68, in −2^31 .. 2^32 − 1. -/
def parseInt (cs : List Char) : Option Int :=
  let n := match cs with
    | '-' :: rest => (parseNat rest).map fun k => -(k : Int)
    | rest => (parseNat rest).map fun k => (k : Int)
  match n with
  | some v => if scriptInt v then some v else none
  | none => none

/-- A `<reg>` of R68: a name, or a numeric index. -/
def parseReg (cs : List Char) : Option RegRef :=
  match regNames.lookup cs with
  | some r => some (.name r)
  | none => match parseNat cs with
    | some n => if n < 32 then some (.index (BitVec.ofNat 5 n)) else none
    | none => none

/-- Integers separated by commas. -/
def parseInts : List (List Char) → Option (List Int)
  | [w] => (parseInt w).map fun n => [n]
  | w :: [','] :: ws => match parseInt w, parseInts ws with
    | some n, some ns => some (n :: ns)
    | _, _ => none
  | _ => none

/-- A pseudo-statement with integer operands (R69). -/
def parseOperands (name : List Char) (ws : List (List Char)) : Option Stmt :=
  match parseInts ws with
  | some [a, b, c, d] =>
    if name = ['L','D','M','A'] then some (.ldma a b c d)
    else if name = ['L','D','M','B'] then some (.ldmb a b c d) else none
  | some [x, y] =>
    if name = ['L','D','V'] then some (.ldv x y)
    else if name = ['L','D','L','E','N'] then some (.ldlen x y) else none
  | some [st, x0, x1, x2, x3] => if name = ['E','X','P','E','C','T'] then some (.expect st x0 x1 x2 x3) else none
  | _ => none

/-- The statement of a line's words (R68, R69). -/
def parseStmt : List (List Char) → Option Stmt
  | [] => none
  | [w] => if w = ['R','E','S','E','T'] then some .reset else (commandNames.lookup w).map Stmt.command
  | w :: ws =>
    if w = ['W','R'] then match ws with
      | [r, [','], n] => match parseReg r, parseInt n with
        | some r, some n => some (.wr r n)
        | _, _ => none
      | _ => none
    else if w = ['R','D'] then match ws with
      | [r] => (parseReg r).map Stmt.rd
      | [r, ['='], ['='], n] => match parseReg r, parseInt n with
        | some r, some n => some (.rdEq r n)
        | _, _ => none
      | _ => none
    else parseOperands w ws

/-- The lines of a text. -/
def textLines : List Char → List Char → List (List Char)
  | [], acc => [acc.reverse]
  | c :: cs, acc => if c = '\n' then acc.reverse :: textLines cs [] else textLines cs (c :: acc)

/-- The script a text writes down: a line without words says nothing, a line that is no statement makes the whole text
no script (R68, R69). -/
def parseScript (text : List Char) : Option (List Stmt) :=
  (((textLines text []).map fun l => lineWords l []).filter fun ws => !ws.isEmpty).mapM parseStmt

end Sys2Proof.Machine
end

