-- ==== Sys2Proof/Tests/Slice0.lean ====
section
/-! SUPPORT. The model's own tests. Expected values are those of 95_test_vectors.md, or of the rule named. The second
half gives, for every statement with hypotheses, a concrete input that meets them. -/

namespace Sys2Proof.Tests

open Sys2Proof.Machine

/-- The results and `STATUS` of an outcome, none for a stop. -/
def outcome (o : Result State) : List Nat :=
  match o with
  | .next t => [t.r0.toNat, t.r1.toNat, t.r2.toNat, t.r3.toNat, t.status.toNat]
  | .fault _ | .refused _ => []

/-- The response and the nineteen register values a transaction leaves. -/
def served (o : Result (State × Option Response)) : List Nat × List Response :=
  match o with
  | .next (t, r) => (Reg.all.map fun q => (t.readReg q).toNat, r.toList)
  | .fault _ | .refused _ => ([], [])

/-- Everything a step leaves: the registers and the responses so far. -/
def stepped (o : Result State) : List Nat × List Response :=
  match o with
  | .next t => (Reg.all.map fun q => (t.readReg q).toNat, t.responses)
  | .fault _ | .refused _ => ([], [])

/-- The text a host function answers. -/
def hostText (o : HostResult (List Char)) : Option (List Char) :=
  match o with
  | .next (_, .ok t) => some t
  | _ => none

/-- The word for the integer of a script. -/
def w (n : Int) : Word := word32 n

/-- The reset state with a matrix, a digraph, a second matrix and the two counts loaded. -/
def loaded (p q : Matrix2) (v : Digraph) (np nc : Word) : State :=
  (((State.reset.withMA (w p.a) (w p.b) (w p.c) (w p.d)).withMB (w q.a) (w q.b) (w q.c) (w q.d)).withV (w v.x)
    (w v.y)).withCounts np nc

/-- The reset state with `MA` loaded. -/
def withKey (a b c d : Int) : State := State.reset.withMA (w a) (w b) (w c) (w d)

/-- The reset state with `A` and `M` loaded. -/
def withModulus (a m : Int) : State := { State.reset with a := w a, m := w m }

/-! Decoding: the words written bit by bit from 30_encoding.md R60 and R62 (bits 31:8 zero, bits 7:0 the opcode). -/

theorem test_decode_modinv : decode 0b00000000000000000000000000000001#32 = .ok .modinv := by decide
theorem test_decode_mulv : decode 0b00000000000000000000000000000010#32 = .ok .mulv := by decide
theorem test_decode_det : decode 0b00000000000000000000000000000011#32 = .ok .det := by decide
theorem test_decode_adj : decode 0b00000000000000000000000000000100#32 = .ok .adj := by decide
theorem test_decode_inv : decode 0b00000000000000000000000000000101#32 = .ok .inv := by decide
theorem test_decode_mulm : decode 0b00000000000000000000000000000110#32 = .ok .mulm := by decide
theorem test_decode_solve : decode 0b00000000000000000000000000000111#32 = .ok .solve := by decide

/-- The words of 95_test_vectors.md 2.6, rejected by name. -/
theorem test_decode_illegal :
    decode 0x00000000#32 = .error .unassignedOpcode ∧ decode 0x00000008#32 = .error .unassignedOpcode ∧
    decode 0x000000FF#32 = .error .unassignedOpcode ∧ decode 0x00000100#32 = .error .zeroFieldNotZero ∧
    decode 0x00000101#32 = .error .zeroFieldNotZero ∧ decode 0x00010005#32 = .error .zeroFieldNotZero ∧
    decode 0x80000001#32 = .error .zeroFieldNotZero ∧ decode 0xFFFFFFFF#32 = .error .zeroFieldNotZero := by decide

theorem test_table_word : decodeTableWord 32 0x00000007 = some .solve ∧ decodeTableWord 32 0x80000001 = none := by
  decide

/-! Well-formedness: an ill-formed term for each check. -/

theorem test_wellFormed_zero_field : legalWord 0x00000101#32 = false := by decide
theorem test_wellFormed_op_low : legalWord 0x00000000#32 = false := by decide
theorem test_wellFormed_op_high : legalWord 0x00000008#32 = false := by decide
theorem test_wellFormed_read : (Transaction.regRead 0x14#5).wellFormed = false := by decide
theorem test_wellFormed_write : (Transaction.regWrite 0x1F#5 0#32).wellFormed = false := by decide
theorem test_wellFormed_program : wellFormedProgram [.reset, .regRead 0x13#5, .regRead 0x14#5] = false := by decide
theorem test_wellFormed_script_high : (Stmt.wr (.name .a) 4294967296).wellFormed = false := by decide
theorem test_wellFormed_script_low : (Stmt.ldv 0 (-2147483649)).wellFormed = false := by decide
theorem test_wellFormed_triple : Triple.toTransaction ⟨.read, 0x04#5, 0x00000001#32⟩ = none := by decide

/-! The commands: rows of 95_test_vectors.md 2.1 to 2.5. -/

theorem test_modinv_negative : outcome (exec .modinv (withModulus (-3) 26)) = [17, 0, 0, 0, 0x20] := by decide
theorem test_modinv_largest : outcome (exec .modinv (withModulus (-1) 2147483647)) = [2147483646, 0, 0, 0, 0x20] := by
  decide
theorem test_mulv_normalises :
    outcome (exec .mulv (loaded ⟨-3, 29, -24, 31⟩ ⟨0, 0, 0, 0⟩ ⟨-19, 30⟩ 0 0)) = [17, 8, 0, 0, 0x40] := by decide
theorem test_det_transpose : outcome (exec .det (withKey 5 8 17 3)) = [9, 0, 0, 0, 0x20] := by decide
theorem test_adj : outcome (exec .adj (withKey 3 3 2 5)) = [5, 23, 24, 3, 0x80] := by decide
theorem test_inv : outcome (exec .inv (withKey (-3) 29 (-24) 31)) = [1, 15, 10, 15, 0x80] := by decide
theorem test_inv_not_invertible : outcome (exec .inv (withKey 13 0 0 1)) = [0, 0, 0, 0, 0x01] := by decide
theorem test_mulm_order :
    outcome (exec .mulm (loaded ⟨9, 4, 5, 7⟩ ⟨3, 3, 2, 5⟩ ⟨0, 0⟩ 0 0)) = [9, 21, 3, 24, 0x80] := by decide
theorem test_solve :
    outcome (exec .solve (loaded ⟨3, 2, 14, 3⟩ ⟨9, 3, 8, 13⟩ ⟨0, 0⟩ 4 4)) = [9, 4, 5, 7, 0x80] := by decide
theorem test_solve_unsigned_counts :
    outcome (exec .solve (loaded ⟨7, 4, 11, 15⟩ ⟨7, 8, 0, 19⟩ ⟨0, 0⟩ 0xFFFFFFFF#32 0xFFFFFFFF#32)) =
      [0, 0, 0, 0, 0x02] := by decide
/-- 2.6: an illegal word zeroes the results and leaves `MA`. -/
theorem test_illegal_word :
    served (serve (.regWrite 0x00#5 0x00010005#32) { withKey 3 3 2 5 with r0 := 5#32, r1 := 23#32, status := 0x80#32 }) =
      ([0, 7, 0, 26, 3, 3, 2, 5, 0, 0, 0, 0, 0, 0, 0, 0, 0, 0, 0, 0], [.ok]) := by decide

/-! The port, reset and the step. -/

/-- The state of 2.7. -/
def portState : State := { State.reset with ma0 := 0xFFFFFFFD#32, a := 3#32, status := 0x20#32, r0 := 9#32 }

theorem test_port_reads :
    portState.readResponse 0x04#5 = .value 0xFFFFFFFD#32 ∧ portState.readResponse 0x01#5 = .value 0x20#32 ∧
    portState.readResponse 0x00#5 = .value 0#32 ∧ portState.readResponse 0x03#5 = .value 0x1A#32 ∧
    portState.readResponse 0x14#5 = .busError ∧ portState.readResponse 0x1F#5 = .busError := by decide
/-- 2.7: writes to `STATUS` and `R0` are ignored, `V0` alone changes. -/
theorem test_port_writes :
    served (serve (.regWrite 0x01#5 0xFFFFFFFF#32) portState) =
      ([0, 0x20, 3, 26, 0xFFFFFFFD, 0, 0, 0, 0, 0, 0, 0, 0, 0, 0, 0, 9, 0, 0, 0], [.ok]) ∧
    served (serve (.regWrite 0x10#5 0x55#32) portState) =
      ([0, 0x20, 3, 26, 0xFFFFFFFD, 0, 0, 0, 0, 0, 0, 0, 0, 0, 0, 0, 9, 0, 0, 0], [.ok]) ∧
    served (serve (.regWrite 0x0C#5 0x80000000#32) portState) =
      ([0, 0x20, 3, 26, 0xFFFFFFFD, 0, 0, 0, 0, 0, 0, 0, 0x80000000, 0, 0, 0, 9, 0, 0, 0], [.ok]) ∧
    served (serve (.regWrite 0x14#5 0x5#32) portState) =
      ([0, 0x20, 3, 26, 0xFFFFFFFD, 0, 0, 0, 0, 0, 0, 0, 0, 0, 0, 0, 9, 0, 0, 0], [.busError]) := by decide
theorem test_port_reset :
    served (serve .reset portState) =
      ([0, 0, 0, 26, 0, 0, 0, 0, 0, 0, 0, 0, 0, 0, 0, 0, 0, 0, 0, 0], []) := by decide
/-- 2.8: MULV as the first command after reset. -/
theorem test_step_runs_placed_word :
    stepped (step (State.reset.withFetchWord 32 2)) =
      ([0, 0x40, 0, 26, 0, 0, 0, 0, 0, 0, 0, 0, 0, 0, 0, 0, 0, 0, 0, 0], [.ok]) := by decide
theorem test_step_idle : step State.reset = .next State.reset := by rfl

/-- Script text: 30_encoding.md R68, one line with a comment, a negative and a hexadecimal integer. -/
theorem test_script_text :
    parseScript ['w','r',' ','A',',',' ','-','3',' ',';',' ','x','\n','R','D',' ','s','t','a','t','u','s',' ','=','=',' ',
      '0','x','1','0'] = some [.wr (.name .a) (-3), .rdEq (.name .status) 16] := by decide
theorem test_script_text_refused : parseScript ['W','R',' ','A'] = none := by decide

/-- 1.1: "HELLO" under `[[3,3],[2,5]]` is "HIOZHN". -/
theorem test_host_encrypt :
    hostText (hillEncrypt ['H','E','L','L','O'] ⟨3, 3, 2, 5⟩ State.reset) = some ['H','I','O','Z','H','N'] := by decide

/-- 93_implementation_defined.md U11: unequal lengths beyond 32 bits, of one parity, and one beside a short text. -/
theorem test_host_counts :
    (hostCounts 4294967296 4294967298).1 ≠ (hostCounts 4294967296 4294967298).2 ∧
    4 ≤ (hostCounts 4294967296 4294967298).1.toNat ∧ (hostCounts 4294967296 4294967298).1.toNat % 2 = 0 ∧
    4 ≤ (hostCounts 4294967296 4294967298).2.toNat ∧ (hostCounts 4294967296 4294967298).2.toNat % 2 = 0 ∧
    (hostCounts 3 4294967297).1 = 3#32 ∧ (hostCounts 3 4294967297).2.toNat % 2 = 1 ∧
    4 ≤ (hostCounts 3 4294967297).2.toNat := by decide

/-! Witnesses: for every statement with hypotheses, inputs that meet them. -/

/-- Words at the edges of each clause of IllegalWordRaisesIllegalCommand. -/
theorem test_witness_IllegalWordRaisesIllegalCommand :
    (0x00000100#32 : Word).toNat / 256 ≠ 0 ∧ (0x00000000#32 : Word).toNat = 0 ∧ 8 ≤ (0x00000008#32 : Word).toNat := by
  decide

/-- ReadChangesNothing: the first unmapped index, `CMD`, the first and the last register after it. -/
theorem test_witness_ReadChangesNothing :
    0x13#5 < (0x14#5 : Index) ∧ (0x00#5 : Index) = Reg.cmd.index ∧ Reg.status ≠ .cmd ∧ 0x01#5 = Reg.status.index ∧
    Reg.r3 ≠ .cmd ∧ 0x13#5 = Reg.r3.index := by decide

/-- WriteChangesOnlyItsRegister: both ends of each range of indices, and no index in two clauses. -/
theorem test_witness_WriteChangesOnlyItsRegister :
    (∀ i : Index, 0x13#5 < i → ¬ i = 0x00#5 ∧ ¬ (i = 0x01#5 ∨ (0x10#5 ≤ i ∧ i ≤ 0x13#5)) ∧ ¬ i ≤ 0x0F#5) ∧
    (0x13#5 < (0x14#5 : Index)) ∧ (0x10#5 ≤ (0x10#5 : Index) ∧ (0x10#5 : Index) ≤ 0x13#5) ∧
    (0x10#5 ≤ (0x13#5 : Index) ∧ (0x13#5 : Index) ≤ 0x13#5) ∧ (0x02#5 ≤ (0x02#5 : Index) ∧ (0x02#5 : Index) ≤ 0x0F#5) ∧
    (0x02#5 ≤ (0x0F#5 : Index) ∧ (0x0F#5 : Index) ≤ 0x0F#5) := by decide

/-- WriteChangesOnlyItsRegister's conclusions at the two ends of the operand registers. -/
theorem test_witness_write_ends :
    served (serve (.regWrite 0x02#5 7#32) State.reset) =
      ([0, 0, 7, 26, 0, 0, 0, 0, 0, 0, 0, 0, 0, 0, 0, 0, 0, 0, 0, 0], [.ok]) ∧
    served (serve (.regWrite 0x0F#5 7#32) State.reset) =
      ([0, 0, 0, 26, 0, 0, 0, 0, 0, 0, 0, 0, 0, 0, 0, 7, 0, 0, 0, 0], [.ok]) := by decide

theorem test_witness_UnmappedAccessIsBusError : 0x14#5 ≤ (0x14#5 : Index) ∧ 0x14#5 ≤ (0x1F#5 : Index) := by decide

theorem test_witness_ResetSetsEveryRegister : Reg.a ≠ .m ∧ Reg.r3 ≠ .m := by decide

/-- ResetForgetsAndIsIdempotent: two states that differ in a register and agree on the host's side, and one `Reset`. -/
theorem test_witness_ResetForgetsAndIsIdempotent :
    portState ≠ State.reset ∧ portState.pending = State.reset.pending ∧ portState.responses = State.reset.responses ∧
    serve .reset portState = .next (State.reset, none) := by
  refine ⟨by decide, rfl, rfl, rfl⟩

/-- A state with two pending transactions. -/
def waiting : State := State.reset.withPending [.regWrite 0x00#5 0x03#32, .regRead 0x01#5]

theorem test_witness_StepServesNextTransaction :
    State.reset.pending = [] ∧ waiting.pending = .regWrite 0x00#5 0x03#32 :: [.regRead 0x01#5] ∧
    ∃ u r, serve (.regWrite 0x00#5 0x03#32) (waiting.withPending [.regRead 0x01#5]) = .next (u, r) :=
  ⟨rfl, rfl, _, _, rfl⟩

theorem test_witness_StepRunsTheDecodedCommand :
    waiting.pending = .regWrite 0x00#5 0x03#32 :: [.regRead 0x01#5] ∧ decode 0x03#32 = .ok .det ∧
    Instr.det.wellFormed = true ∧ ∃ t, exec .det (waiting.withPending [.regRead 0x01#5]) = .next t :=
  ⟨rfl, by decide, rfl, _, rfl⟩

theorem test_witness_EveryStepKeepsTheInvariant : waiting.Inv ∧ ∃ t, step waiting = .next t := ⟨by decide, _, rfl⟩

/-- A pending transaction that is neither a write to `CMD` nor a `Reset`. -/
theorem test_witness_OnlyCommandsAndResetWriteOutcome :
    (∃ t, step (State.reset.withPending [.regRead 0x01#5]) = .next t) ∧
    (∀ x ts, (State.reset.withPending [.regRead 0x01#5]).pending ≠ .regWrite 0x00#5 x :: ts) ∧
    (∀ ts, (State.reset.withPending [.regRead 0x01#5]).pending ≠ .reset :: ts) := by
  refine ⟨⟨_, rfl⟩, fun x ts h => ?_, fun ts h => ?_⟩ <;> cases h

theorem test_witness_ZeroStatusMeansNoCommand :
    serve (.regRead 0x14#5) portState = .next (portState, some .busError) ∧ (0x01#5 : Index) ≠ 0x00#5 ∧
    serve (.regWrite 0x01#5 0#32) portState = .next (portState, some .ok) := ⟨rfl, by decide, rfl⟩

/-- CommandsReadOnlyTheirOperands: two different states that agree on DET's operands. -/
theorem test_witness_CommandsReadOnlyTheirOperands :
    (∀ r ∈ Reg.readBy .det, (withKey 3 3 2 5).readReg r =
      ({ withKey 3 3 2 5 with m := 0#32, status := 0x20#32 } : State).readReg r) ∧
    withKey 3 3 2 5 ≠ { withKey 3 3 2 5 with m := 0#32, status := 0x20#32 } := by decide

/-- ModinvSemantics, first clause at its boundary `m = 0`, second at `m = 1`, third at `m = 2`. -/
theorem test_witness_ModinvSemantics :
    sint (withModulus 3 0).m ≤ 0 ∧ 0 < sint (withModulus 5 1).m ∧ ¬ (1 : Int) ≤ sint (withModulus 5 1).m - 1 ∧
    0 < sint (withModulus 1 2).m ∧ (1 : Int) ≤ sint (withModulus 1 2).m - 1 ∧
    nmod (nmod (sint (withModulus 1 2).a) (sint (withModulus 1 2).m) * 1) (sint (withModulus 1 2).m) = 1 := by decide

theorem test_witness_modinv_clauses :
    outcome (exec .modinv (withModulus 3 0)) = [0, 0, 0, 0, 0x06] ∧
    outcome (exec .modinv (withModulus 5 1)) = [0, 0, 0, 0, 0x10] ∧
    outcome (exec .modinv (withModulus 1 2)) = [1, 0, 0, 0, 0x20] := by decide

/-- ModinvFindsExactlyTheCoprime at its boundary `m = 2`, where the status is success. -/
theorem test_witness_ModinvFindsExactlyTheCoprime :
    2 ≤ sint (withModulus 1 2).m ∧ outcome (exec .modinv (withModulus 1 2)) = [1, 0, 0, 0, 0x20] := by decide

/-- ModinvTableAt26: a listed value of `a'`, and one that is not listed. -/
theorem test_witness_ModinvTableAt26 :
    (withModulus 3 26).m = 0x1A#32 ∧ ((3, 9) : Int × Int) ∈ inverseTable ∧ nmod (sint (withModulus 3 26).a) 26 = 3 ∧
    (∀ p ∈ inverseTable, nmod (sint (withModulus 2 26).a) 26 ≠ p.1) := by decide

theorem test_witness_EuclidEqualsTheSearch :
    (1 : Int) ≤ 1 ∧ modInverse 5 1 = searchInverse 5 1 ∧ searchInverse 3 26 = some 9 := by decide

/-- InvResult: a determinant that no number inverts, and one that 3 inverts. -/
theorem test_witness_InvResult :
    (∀ i : Fin 26, nmod (nmod (13 * 1 - 0 * 0) 26 * (i.val : Int)) 26 ≠ 1) ∧
    nmod (nmod (3 * 5 - 3 * 2) 26 * 3) 26 = 1 := by decide

theorem test_witness_InvSucceedsIffDeterminantCoprime :
    outcome (exec .inv (withKey 3 3 2 5)) = [15, 17, 20, 9, 0x80] ∧
    outcome (exec .inv (withKey 6 24 1 13)) = [0, 0, 0, 0, 0x01] := by decide

/-- InvIsATwoSidedInverse and DecryptingADigraphUndoesEncrypting: an invertible MA. -/
theorem test_witness_InvIsATwoSidedInverse :
    ∃ t, exec .inv (withKey 3 3 2 5) = .next t ∧ t.status = 0x00000080#32 := ⟨_, rfl, by decide⟩

theorem test_witness_DecryptingADigraphUndoesEncrypting :
    ∃ t, exec .inv (loaded ⟨3, 3, 2, 5⟩ ⟨0, 0, 0, 0⟩ ⟨7, 4⟩ 0 0) = .next t ∧ t.status = 0x00000080#32 :=
  ⟨_, rfl, by decide⟩

/-- OnlyTheClassesMatter: the classes of the row that normalises to `[[23,3],[2,5]]`, and of 29 and 3 modulo 26. -/
theorem test_witness_OnlyTheClassesMatter :
    Instr.det ≠ .modinv ∧
    (∀ r ∈ Reg.readBy .det, sint ((withKey (-3) 29 (-24) 31).readReg r) % 26 = sint ((withKey 23 3 2 5).readReg r) % 26) ∧
    (withKey (-3) 29 (-24) 31).np = (withKey 23 3 2 5).np ∧ (withKey (-3) 29 (-24) 31).nc = (withKey 23 3 2 5).nc ∧
    (withModulus 29 26).m = (withModulus 3 26).m ∧ sint (withModulus 29 26).a % 26 = sint (withModulus 3 26).a % 26 := by
  decide

/-- SolveSemantics: each of its five outcomes, the counts at their boundaries (2.5). -/
theorem test_witness_SolveSemantics :
    outcome (exec .solve (loaded ⟨7, 4, 11, 15⟩ ⟨7, 8, 0, 19⟩ ⟨0, 0⟩ 3 4)) = [0, 0, 0, 0, 0x03] ∧
    outcome (exec .solve (loaded ⟨0, 1, 2, 3⟩ ⟨1, 2, 3, 4⟩ ⟨0, 0⟩ 3 3)) = [0, 0, 0, 0, 0x04] ∧
    outcome (exec .solve (loaded ⟨0, 1, 2, 3⟩ ⟨1, 2, 3, 4⟩ ⟨0, 0⟩ 5 5)) = [0, 0, 0, 0, 0x02] ∧
    outcome (exec .solve (loaded ⟨0, 1, 2, 3⟩ ⟨1, 2, 3, 4⟩ ⟨0, 0⟩ 4 4)) = [0, 0, 0, 0, 0x05] ∧
    outcome (exec .solve (loaded ⟨7, 4, 11, 15⟩ ⟨7, 8, 0, 19⟩ ⟨0, 0⟩ 4 4)) = [3, 3, 2, 5, 0x80] := by decide

/-- SolveEqualsInvThenMulm: equal even counts of 4, with both verdicts of INV. -/
theorem test_witness_SolveEqualsInvThenMulm :
    (4#32 : Word).toNat = 4 ∧ (4#32 : Word).toNat % 2 = 0 ∧
    outcome (exec .inv (withKey 7 11 4 15)) = [19, 19, 14, 21, 0x80] ∧
    outcome (exec .inv (withKey 0 2 1 3)) = [0, 0, 0, 0, 0x01] := by decide

theorem test_witness_SolveRecoversTheKey :
    4 ≤ (4#32 : Word).toNat ∧ (4#32 : Word).toNat % 2 = 0 ∧
    Int.gcd (sint (w 7) * sint (w 15) - sint (w 11) * sint (w 4)) 26 = 1 := by decide

/-- CommandsRaiseOnlyTheirErrors: an outcome that carries the code of `NotInvertible`. -/
theorem test_witness_CommandsRaiseOnlyTheirErrors : statusErr 0x00000001#32 = ErrorKind.notInvertible.code := by decide

/-- ScriptWriteReadsBack: both ends of the integers a script may write. -/
theorem test_witness_ScriptWriteReadsBack :
    Reg.a ∈ operandRegs ∧ Reg.nc ∈ operandRegs ∧ scriptInt (-2147483648) = true ∧ scriptInt 4294967295 = true ∧
    word32 (-2147483648) = 0x80000000#32 ∧ word32 4294967295 = 0xFFFFFFFF#32 := by decide

theorem test_witness_OperandWritesCommute : Reg.a ∈ operandRegs ∧ Reg.nc ∈ operandRegs ∧ Reg.a ≠ .nc := by decide

theorem test_witness_UnitsShareNothing :
    1 ≠ 0 ∧ [State.reset, waiting][1]? = some waiting ∧ ∃ t, step waiting = .next t := ⟨by decide, rfl, _, rfl⟩

/-- HostEncryptMultipliesEachDigraph and HostRoundTrip: an ASCII text with an odd number of letters, a coprime key. -/
theorem test_witness_HostRoundTrip :
    isAscii ['H','e','l','l','o','!'] = true ∧ Int.gcd (3 * 5 - 3 * 2) 26 = 1 ∧
    (textToResidues ['H','e','l','l','o','!']).length % 2 = 1 := by decide

theorem test_witness_HostEncryptMultipliesEachDigraph :
    isAscii [] = true ∧ hostText (hillEncrypt [] ⟨3, 3, 2, 5⟩ State.reset) = some [] := by decide

/-- HostDecryptChecksKeyThenLength: a key that is not coprime, and a coprime key with an odd and an even text. -/
theorem test_witness_HostDecryptChecksKeyThenLength :
    Int.gcd (2 * 1 - 0 * 0) 26 ≠ 1 ∧ Int.gcd (3 * 5 - 3 * 2) 26 = 1 ∧ isAscii ['H','I','O'] = true ∧
    (textToResidues ['H','I','O']).length % 2 = 1 ∧ (textToResidues ['H','I']).length % 2 = 0 := by decide

/-- HostCrackReturnsTheKey: "HELP" (1.4). -/
theorem test_witness_HostCrackReturnsTheKey :
    isAscii ['H','E','L','P'] = true ∧ textToResidues ['H','E','L','P'] = 7 :: 4 :: 11 :: 15 :: [] ∧
    ([] : List Residue).length % 2 = 0 ∧ Int.gcd (7 * 15 - 11 * 4) 26 = 1 := by decide

/-- HostModInverse: both ends of the moduli, an `i` with an answer, and both grounds for none. -/
theorem test_witness_HostModInverse :
    (1 : Int) ≤ 1 ∧ (1 : Int) < 2 ^ 31 ∧ (2147483647 : Int) < 2 ^ 31 ∧ Int.gcd 2 26 ≠ 1 ∧ Int.gcd 3 26 = 1 ∧
    modInverse 3 26 = some 9 := by decide

end Sys2Proof.Tests
end

/-! PROOFS of the family 10_state.md: what a transaction does to the results and `STATUS`, the frame of a command, and
that a command is a function of its operand registers. -/

section StateFamily

namespace Sys2Proof.Machine

/-! The port, one rule each: a read at a register's own index, a command word, a `Reset`, and the step that serves. -/

/-- A read at the index of a register gives that register (R20, R43). -/
@[simp] theorem State.readResponse_index (s : State) (r : Reg) : s.readResponse r.index = .value (s.readReg r) := by
  simp [State.readResponse]

/-- A write to `CMD` responds `Ok` after the word's command has run (R25, R149). -/
theorem serve_cmdWrite {w : Word} {s t : State} (h : runCommandWord w s = .next t) :
    serve (.regWrite Config.cmdIndex w) s = .next (t, some .ok) := by
  have hcmd : Reg.ofIndex Config.cmdIndex = some .cmd := rfl
  simp [serve, serveWrite, hcmd, h, andThen]

/-- A word that decodes runs the command it decodes to (R61). -/
theorem runCommandWord_of_decode {w : Word} {i : Instr} (h : decode w = .ok i) (s : State) :
    runCommandWord w s = exec i s := by
  simp only [runCommandWord, h]

/-- A word that does not decode raises `IllegalCommand` (R63). -/
theorem runCommandWord_of_decode_error {w : Word} {e : DecodeError} (h : decode w = .error e) (s : State) :
    runCommandWord w s = .next (s.raise .illegalCommand) := by
  simp only [runCommandWord, h]

/-- The step that serves the first pending transaction (R42, R47). -/
theorem step_of_serve {s u : State} {t : Transaction} {ts : List Transaction} {r : Option Response}
    (hp : s.pending = t :: ts) (h : serve t (s.withPending ts) = .next (u, r)) : step s = .next (u.record r) := by
  simp [step, takeTransaction, hp, h, andThen]

/-- A `Reset` zeroes every register but `M` (R35). -/
theorem State.readReg_resetRegisters_of_ne_m (s : State) {r : Reg} (h : r ≠ .m) :
    s.resetRegisters.readReg r = 0x00000000#32 := by
  cases r with
  | m => exact absurd rfl h
  | _ => rfl

/-! Agreement in the results and `STATUS`, all that the invariant speaks of. -/

theorem State.sameOutcome.refl (s : State) : s.sameOutcome s := ⟨rfl, rfl, rfl, rfl, rfl⟩

/-- A register write reaches neither the results nor `STATUS` (R44, R46). -/
theorem State.sameOutcome_writeReg (s : State) (v : Word) (r : Reg) : s.sameOutcome (s.writeReg v r) := by
  simp [State.sameOutcome]

/-- The invariant is about the results and `STATUS` alone. -/
theorem State.Inv.of_sameOutcome {s t : State} (hs : s.Inv) (h : s.sameOutcome t) : t.Inv := by
  obtain ⟨h0, h1, h2, h3, hst⟩ := h
  simpa only [State.Inv, State.resultsMatch, h0, h1, h2, h3, hst] using hs

/-- At reset `STATUS` is 0 and the results are zeros (R35). -/
theorem State.reset_inv : State.reset.Inv := by decide

theorem State.resetRegisters_inv (s : State) : s.resetRegisters.Inv :=
  State.reset_inv.of_sameOutcome ⟨rfl, rfl, rfl, rfl, rfl⟩

/-! What each end of a command establishes (R27). -/

/-- A Residue is stored as a Residue word (R11). -/
theorem isResidueWord_word {n : Int} (h : 0 ≤ n ∧ n < 26) : isResidueWord (word n) := by
  have hn : ((word n).toNat : Int) = n := uint_word h.1 (h.2.trans (by decide))
  unfold isResidueWord
  omega

theorem State.return1_inv (s : State) {n : Int} (h0 : 0 ≤ n) (h1 : n ≤ 2 ^ 31 - 2) : (s.return1 n).Inv := by
  have hn : ((word n).toNat : Int) = n := uint_word h0 (by omega)
  have hle : (word n).toNat ≤ 2 ^ 31 - 2 := by omega
  simpa [State.Inv, State.resultsMatch, successStatus_one, legalStatuses] using hle

theorem State.return2_inv (s : State) {v : Digraph} (h : v.isReduced) : (s.return2 v).Inv := by
  obtain ⟨hx, hy⟩ := h
  simpa [State.Inv, State.resultsMatch, successStatus_two, legalStatuses] using
    And.intro (isResidueWord_word hx) (isResidueWord_word hy)

theorem State.return4_inv (s : State) {k : Matrix2} (h : k.isReduced) : (s.return4 k).Inv := by
  obtain ⟨ha, hb, hc, hd⟩ := h
  simpa [State.Inv, State.resultsMatch, successStatus_four, legalStatuses] using
    And.intro (isResidueWord_word ha) (And.intro (isResidueWord_word hb)
      (And.intro (isResidueWord_word hc) (isResidueWord_word hd)))

theorem State.returnNone_inv (s : State) : s.returnNone.Inv := by
  simp [State.Inv, State.resultsMatch, noneStatus_eq, legalStatuses]

theorem State.raise_inv (s : State) (e : ErrorKind) : (s.raise e).Inv := by
  cases e <;> simp [State.Inv, State.resultsMatch, errorStatus_eq, ErrorKind.code, legalStatuses]

/-- Every end of a command meets the invariant, whatever the state before (R27, R29). -/
theorem CommandEnd.inv {s t : State} (h : CommandEnd s t) : t.Inv := by
  cases h with
  | one n h0 h1 => exact s.return1_inv h0 h1
  | two v h => exact s.return2_inv h
  | four k h => exact s.return4_inv h
  | none => exact s.returnNone_inv
  | error e => exact s.raise_inv e

/-- No end of a command leaves `STATUS` 0 (R36). -/
theorem CommandEnd.status_ne_zero {s t : State} (h : CommandEnd s t) : t.status ≠ 0 := by
  cases h with
  | one n _ _ => simp [successStatus_one]
  | two v _ => simp [successStatus_two]
  | four k _ => simp [successStatus_four]
  | none => simp [noneStatus_eq]
  | error e => cases e <;> simp [errorStatus_eq, ErrorKind.code]

/-! What a transaction, and then a step, does to the results and `STATUS`. -/

/-- Only a command and a `Reset` touch the results and `STATUS` (R26, R43, R44, R46). -/
theorem serve_outcome {t : Transaction} {s u : State} {r : Option Response} (h : serve t s = .next (u, r)) :
    s.sameOutcome u ∨ (∃ w, t = .regWrite Config.cmdIndex w ∧ CommandEnd s u) ∨
      (t = .reset ∧ u = s.resetRegisters) := by
  rcases serve_cases t s with ⟨i, -, h'⟩ | ⟨i, v, -, -, h'⟩ | ⟨w, u', ht, -, he, h'⟩ | ⟨q, v, -, -, h'⟩ | ⟨ht, h'⟩ <;>
    rw [h'] at h <;> cases h
  · exact .inl (.refl s)
  · exact .inl (.refl s)
  · exact .inr (.inl ⟨w, ht, he⟩)
  · exact .inl (s.sameOutcome_writeReg v q)
  · exact .inr (.inr ⟨ht, rfl⟩)

/-- A step leaves the results and `STATUS` alone, or its transaction is a command or a `Reset`, after which the
invariant holds whatever held before. -/
theorem step_outcome {s t : State} (h : step s = .next t) :
    s.sameOutcome t ∨ (∃ w ts, s.pending = .regWrite Config.cmdIndex w :: ts ∧ t.Inv) ∨
      (∃ ts, s.pending = .reset :: ts ∧ t.Inv) := by
  rcases step_cases s with ⟨-, h'⟩ | ⟨x, ts, u, r, hp, hx, h'⟩ <;> rw [h'] at h <;> cases h
  · exact .inl (.refl s)
  · have hrec : u.sameOutcome (u.record r) := ⟨rfl, rfl, rfl, rfl, rfl⟩
    rcases serve_outcome hx with ho | ⟨w, rfl, he⟩ | ⟨rfl, rfl⟩
    · exact .inl ho
    · exact .inr (.inl ⟨w, ts, hp, he.inv.of_sameOutcome hrec⟩)
    · exact .inr (.inr ⟨ts, hp, (State.resetRegisters_inv _).of_sameOutcome hrec⟩)

/-! The frame of a command. -/

/-- Delivering an outcome leaves every operand register alone (R28, R29). -/
theorem State.readReg_deliver (s : State) (x0 x1 x2 x3 st : Word) {r : Reg} (h : r ∈ operandRegs) :
    (s.deliver x0 x1 x2 x3 st).readReg r = s.readReg r := by
  cases r with
  | cmd | status | r0 | r1 | r2 | r3 => simp [operandRegs] at h
  | _ => rfl

theorem State.commandFrame_deliver (s : State) (x0 x1 x2 x3 st : Word) :
    s.commandFrame (s.deliver x0 x1 x2 x3 st) :=
  ⟨fun _ hr => s.readReg_deliver x0 x1 x2 x3 st hr, rfl, rfl⟩

theorem CommandEnd.commandFrame {s t : State} (h : CommandEnd s t) : s.commandFrame t :=
  h.deliver ▸ s.commandFrame_deliver _ _ _ _ _

/-! A command is a function of the operand registers it names (R28, 30_encoding.md R65). -/

/-- The registers a command reads are operand registers (R28). -/
theorem Reg.mem_operandRegs_of_mem_readBy {i : Instr} {r : Reg} (h : r ∈ Reg.readBy i) : r ∈ operandRegs := by
  revert r
  cases i <;> decide

section Operands
variable {s u : State}

theorem State.matrixMA_congr (h : ∀ r ∈ [Reg.ma0, .ma1, .ma2, .ma3], s.readReg r = u.readReg r) :
    s.matrixMA = u.matrixMA := by
  simp only [List.forall_mem_cons, State.readReg] at h
  simp only [State.matrixMA, h]

theorem State.plaintextP_congr (h : ∀ r ∈ [Reg.ma0, .ma1, .ma2, .ma3], s.readReg r = u.readReg r) :
    s.plaintextP = u.plaintextP := by
  simp only [List.forall_mem_cons, State.readReg] at h
  simp only [State.plaintextP, h]

theorem State.matrixMB_congr (h : ∀ r ∈ [Reg.mb0, .mb1, .mb2, .mb3], s.readReg r = u.readReg r) :
    s.matrixMB = u.matrixMB := by
  simp only [List.forall_mem_cons, State.readReg] at h
  simp only [State.matrixMB, h]

theorem State.ciphertextC_congr (h : ∀ r ∈ [Reg.mb0, .mb1, .mb2, .mb3], s.readReg r = u.readReg r) :
    s.ciphertextC = u.ciphertextC := by
  simp only [List.forall_mem_cons, State.readReg] at h
  simp only [State.ciphertextC, h]

theorem State.digraphV_congr (h : ∀ r ∈ [Reg.v0, .v1], s.readReg r = u.readReg r) : s.digraphV = u.digraphV := by
  simp only [List.forall_mem_cons, State.readReg] at h
  simp only [State.digraphV, h]

end Operands

/-- The two outcomes are next states that deliver the same results and `STATUS`, each into its own state. -/
def deliverAlike (s u : State) (o p : Result State) : Prop :=
  ∃ x0 x1 x2 x3 st, o = .next (s.deliver x0 x1 x2 x3 st) ∧ p = .next (u.deliver x0 x1 x2 x3 st)

/-- One result delivered into two states is delivered alike; every way a command ends is such a delivery. -/
theorem deliverAlike_deliver (s u : State) (x0 x1 x2 x3 st : Word) :
    deliverAlike s u (.next (s.deliver x0 x1 x2 x3 st)) (.next (u.deliver x0 x1 x2 x3 st)) :=
  ⟨x0, x1, x2, x3, st, rfl, rfl⟩

/-- MODINV is a function of `A` and `M` (40_modinv.md R81). -/
theorem execModinv_alike {s u : State} (ha : s.a = u.a) (hm : s.m = u.m) :
    deliverAlike s u (execModinv s) (execModinv u) := by
  simp only [execModinv, ha, hm]
  split_ifs
  · apply deliverAlike_deliver
  · cases modInverse (sint u.a) (sint u.m) <;> apply deliverAlike_deliver

/-- INV is a function of MA (41_matrix_ops.md R98). -/
theorem execInv_alike {s u : State} (hk : s.matrixMA = u.matrixMA) : deliverAlike s u (execInv s) (execInv u) := by
  simp only [execInv, hk]
  cases u.matrixMA.inverse <;> apply deliverAlike_deliver

/-- SOLVE is a function of the two counts and of its two matrices (42_solver.md R112). -/
theorem execSolve_alike {s u : State} (hp : s.plaintextP = u.plaintextP) (hc : s.ciphertextC = u.ciphertextC)
    (hnp : s.np = u.np) (hnc : s.nc = u.nc) : deliverAlike s u (execSolve s) (execSolve u) := by
  simp only [execSolve, hp, hc, hnp, hnc]
  split_ifs
  · apply deliverAlike_deliver
  · apply deliverAlike_deliver
  · apply deliverAlike_deliver
  · cases u.plaintextP.inverse <;> apply deliverAlike_deliver

/-- States that agree on the registers a command reads get the same results and `STATUS` from it (R28). -/
theorem exec_alike {i : Instr} {s u : State} (h : ∀ r ∈ Reg.readBy i, s.readReg r = u.readReg r) :
    deliverAlike s u (exec i s) (exec i u) := by
  have part : ∀ {l : List Reg}, l ⊆ Reg.readBy i → ∀ r ∈ l, s.readReg r = u.readReg r := fun hl r hr => h r (hl hr)
  cases i with
  | modinv => exact execModinv_alike (h .a (by decide)) (h .m (by decide))
  | mulv =>
    have hk := State.matrixMA_congr (part (by decide))
    have hv := State.digraphV_congr (part (by decide))
    show deliverAlike s u (execMulv s) (execMulv u)
    rw [execMulv, execMulv, hk, hv]
    apply deliverAlike_deliver
  | det =>
    show deliverAlike s u (execDet s) (execDet u)
    rw [execDet, execDet, State.matrixMA_congr h]
    apply deliverAlike_deliver
  | adj =>
    show deliverAlike s u (execAdj s) (execAdj u)
    rw [execAdj, execAdj, State.matrixMA_congr h]
    apply deliverAlike_deliver
  | inv => exact execInv_alike (State.matrixMA_congr h)
  | mulm =>
    have hk := State.matrixMA_congr (part (by decide))
    have hl := State.matrixMB_congr (part (by decide))
    show deliverAlike s u (execMulm s) (execMulm u)
    rw [execMulm, execMulm, hk, hl]
    apply deliverAlike_deliver
  | solve =>
    exact execSolve_alike (State.plaintextP_congr (part (by decide))) (State.ciphertextC_congr (part (by decide)))
      (h .np (by decide)) (h .nc (by decide))

/-- A command word gives one and the same state whatever the results and `STATUS` held (R29). -/
theorem runCommandWord_deliver (w : Word) (s : State) (x0 x1 x2 x3 st : Word) :
    runCommandWord w (s.deliver x0 x1 x2 x3 st) = runCommandWord w s := by
  cases hd : decode w with
  | error e => rw [runCommandWord_of_decode_error hd, runCommandWord_of_decode_error hd]; rfl
  | ok i =>
    rw [runCommandWord_of_decode hd, runCommandWord_of_decode hd]
    have hagree : ∀ r ∈ Reg.readBy i, (s.deliver x0 x1 x2 x3 st).readReg r = s.readReg r :=
      fun r hr => s.readReg_deliver x0 x1 x2 x3 st (Reg.mem_operandRegs_of_mem_readBy hr)
    obtain ⟨y0, y1, y2, y3, su, hl, hr⟩ := exec_alike hagree
    rw [hl, hr, State.deliver_deliver]

/-! The obligations. -/

/-- Settles O16: a step leaves the outcome as it was, or it is a command or a `Reset` and establishes the invariant. -/
theorem everyStepKeepsTheInvariant : Obligations.EveryStepKeepsTheInvariant := by
  intro s t hs hstep
  rcases step_outcome hstep with ho | ⟨-, -, -, ht⟩ | ⟨-, -, ht⟩
  · exact hs.of_sameOutcome ho
  · exact ht
  · exact ht

/-- Settles O9, register by register. -/
theorem resetSetsEveryRegister : Obligations.ResetSetsEveryRegister := fun s =>
  ⟨s.resetRegisters, rfl, rfl, rfl, fun _ hr => s.readReg_resetRegisters_of_ne_m hr⟩

/-- Settles O18: of the cases of a step, the two that change the outcome are excluded by the hypotheses. -/
theorem onlyCommandsAndResetWriteOutcome : Obligations.OnlyCommandsAndResetWriteOutcome := by
  intro s t hstep hcmd hreset
  rcases step_outcome hstep with ho | ⟨w, ts, hp, -⟩ | ⟨ts, hp, -⟩
  · exact ho
  · exact absurd hp (hcmd w ts)
  · exact absurd hp (hreset ts)

/-- Settles O19: no end of a command has `STATUS` 0, and the other transactions leave the outcome alone. -/
theorem zeroStatusMeansNoCommand : Obligations.ZeroStatusMeansNoCommand := by
  refine ⟨fun w s => ?_, fun s => ⟨s.resetRegisters, rfl, rfl⟩, fun i s t r h => ?_, fun i v s t r hi h => ?_⟩
  · obtain ⟨t, ht, hend⟩ := runCommandWord_end w s
    exact ⟨t, serve_cmdWrite ht, hend.status_ne_zero⟩
  · cases h
    rfl
  · rcases serve_outcome h with ⟨-, -, -, -, hst⟩ | ⟨w, hw, -⟩ | ⟨hw, -⟩
    · exact hst.symm
    · cases hw
      exact absurd rfl hi
    · cases hw

/-- Settles O20: each of the ways a command ends has the frame. -/
theorem commandsChangeNoOperand : Obligations.CommandsChangeNoOperand := by
  intro i s
  obtain ⟨t, ht, hend⟩ := exec_end i s
  exact ⟨t, ht, hend.commandFrame⟩

/-- Settles O21: agreeing states deliver alike, and a delivery has the frame. -/
theorem commandsReadOnlyTheirOperands : Obligations.CommandsReadOnlyTheirOperands := by
  intro i s u hagree
  obtain ⟨x0, x1, x2, x3, st, hs, hu⟩ := exec_alike hagree
  have hlen : (Reg.readBy i).length ≤ 10 := by cases i <;> decide
  exact ⟨hlen, _, _, hs, hu, ⟨rfl, rfl, rfl, rfl, rfl⟩, s.commandFrame_deliver _ _ _ _ _,
    u.commandFrame_deliver _ _ _ _ _⟩

/-- Settles O22: no command word sees an earlier outcome, and each replaces the whole of it. -/
theorem nothingEarlierSurvivesACommand : Obligations.NothingEarlierSurvivesACommand := by
  intro w x0 x1 x2 x3 st s
  obtain ⟨t, ht, -⟩ := runCommandWord_end w s
  exact ⟨t, serve_cmdWrite ht, serve_cmdWrite ((runCommandWord_deliver w s x0 x1 x2 x3 st).trans ht)⟩

/-- Settles O5: each of the twenty indices is the index of the register R20 names there. -/
theorem registerMap : Obligations.RegisterMap := fun s =>
  ⟨s.readResponse_index .cmd, s.readResponse_index .status, s.readResponse_index .a, s.readResponse_index .m,
    s.readResponse_index .ma0, s.readResponse_index .ma1, s.readResponse_index .ma2, s.readResponse_index .ma3,
    s.readResponse_index .mb0, s.readResponse_index .mb1, s.readResponse_index .mb2, s.readResponse_index .mb3,
    s.readResponse_index .v0, s.readResponse_index .v1, s.readResponse_index .np, s.readResponse_index .nc,
    s.readResponse_index .r0, s.readResponse_index .r1, s.readResponse_index .r2, s.readResponse_index .r3⟩

/-- Settles O13: the word is served as the command it decodes to, and the step records its `Ok`. -/
theorem stepRunsTheDecodedCommand : Obligations.StepRunsTheDecodedCommand := by
  intro s t w i ts hp hdec _ hexec
  exact step_of_serve hp (serve_cmdWrite ((runCommandWord_of_decode hdec _).trans hexec))

/-- Settles O17: the base case of the invariant that O16 keeps. -/
theorem resetMeetsTheInvariant : Obligations.ResetMeetsTheInvariant := State.reset_inv

end Sys2Proof.Machine

end StateFamily

/-! PROOFS of the family 20_memory.md: the accesses of the host port by index, a run as the fold of its transactions, a
command word issued twice, and the byte-addressed bus. -/

section MemoryFamily

namespace Sys2Proof.Machine

/-! The register map, read from the index to the register (R20). -/

/-- Every index up to 0x13 names a register (R20). -/
theorem Reg.exists_index_eq {i : Index} (h : i ≤ Config.lastIndex) : ∃ r : Reg, r.index = i := by
  cases hr : Reg.ofIndex i with
  | none => exact absurd ((Reg.ofIndex_eq_none_iff i).mp hr) (BitVec.not_lt.mpr h)
  | some r => exact ⟨r, Reg.index_of_ofIndex hr⟩

/-- `CMD` is the register at index 0 and no other is (R25). -/
theorem Reg.index_eq_cmdIndex_iff (r : Reg) : r.index = Config.cmdIndex ↔ r = .cmd := by
  cases r <;> decide

/-- The operand registers are those at 0x02 to 0x0F (R20). -/
theorem Reg.mem_operandRegs_iff_index (r : Reg) : r ∈ operandRegs ↔ 0x02#5 ≤ r.index ∧ r.index ≤ 0x0F#5 := by
  cases r <;> decide

/-! Unmapped indices (R45). -/

theorem State.readResponse_unmapped (s : State) {i : Index} (h : Config.lastIndex < i) :
    s.readResponse i = .busError := by
  simp [State.readResponse, (Reg.ofIndex_eq_none_iff i).mpr h]

theorem serve_regRead_unmapped (s : State) {i : Index} (h : Config.lastIndex < i) :
    serve (.regRead i) s = .next (s, some .busError) := by
  rw [serve, s.readResponse_unmapped h]

theorem serve_regWrite_unmapped (v : Word) (s : State) {i : Index} (h : Config.lastIndex < i) :
    serve (.regWrite i v) s = .next (s, some .busError) := by
  simp [serve, serveWrite, (Reg.ofIndex_eq_none_iff i).mpr h]

/-! Writes at a mapped index (R44, R46). -/

/-- Away from `CMD`, a write is the write of the register at that index. -/
theorem serve_regWrite_index {r : Reg} (h : r ≠ .cmd) (v : Word) (s : State) :
    serve (.regWrite r.index v) s = .next (s.writeReg v r, some .ok) := by
  cases r with
  | cmd => exact absurd rfl h
  | _ => rfl

/-- A write to a register leaves what is read at every other index, an unmapped one included (R44). -/
theorem State.readResponse_writeReg_ne (s : State) (v : Word) {r : Reg} {j : Index} (h : j ≠ r.index) :
    (s.writeReg v r).readResponse j = s.readResponse j := by
  by_cases hj : Config.lastIndex < j
  · rw [State.readResponse_unmapped _ hj, State.readResponse_unmapped _ hj]
  · obtain ⟨q, rfl⟩ := Reg.exists_index_eq (BitVec.not_lt.mp hj)
    have hq : q ≠ r := fun e => h (e ▸ rfl)
    rw [State.readResponse_index, State.readResponse_index, State.readReg_writeReg_ne s v r hq]

/-- At `STATUS` and `R0..R3` a write is ignored (R46). -/
theorem serve_regWrite_ignored {i : Index} (h : i = 0x01#5 ∨ (0x10#5 ≤ i ∧ i ≤ 0x13#5)) (v : Word) (s : State) :
    serve (.regWrite i v) s = .next (s, some .ok) := by
  obtain ⟨r, rfl⟩ := Reg.exists_index_eq (i := i) (by bv_omega)
  have hcmd : r ≠ .cmd := fun e => by
    have := (Reg.index_eq_cmdIndex_iff r).mpr e
    bv_omega
  have hop : r ∉ operandRegs := fun e => by
    have := (Reg.mem_operandRegs_iff_index r).mp e
    bv_omega
  rw [serve_regWrite_index hcmd, State.writeReg_of_not_operand s v r hop]

/-! A list of transactions (R53), and a run of the machine over it. -/

/-- Serving a list always answers a next state (60_exceptions.md R148). -/
theorem serveAll_next (ts : List Transaction) (s : State) : ∃ t rs, serveAll ts s = .next (t, rs) := by
  induction ts generalizing s with
  | nil => exact ⟨s, [], rfl⟩
  | cons x xs ih =>
    obtain ⟨u, r, hx⟩ := serve_next x s
    obtain ⟨t, rs, hxs⟩ := ih u
    exact ⟨t, r.toList ++ rs, serveAll_cons hx hxs⟩

/-- What serving a non-empty list can do: its first transaction is served, and then the others from where it ends. -/
theorem exists_of_serveAll_cons {x : Transaction} {xs : List Transaction} {s t : State} {rs : List Response}
    (h : serveAll (x :: xs) s = .next (t, rs)) :
    ∃ u r rs', serve x s = .next (u, r) ∧ serveAll xs u = .next (t, rs') ∧ rs = r.toList ++ rs' := by
  obtain ⟨u, r, hx⟩ := serve_next x s
  obtain ⟨v, rs', hxs⟩ := serveAll_next xs u
  rw [serveAll_cons hx hxs] at h
  cases h
  exact ⟨u, r, rs', hx, hxs, rfl⟩

/-- Serving a list leaves what the host has still to issue. -/
theorem serveAll_pending {ts : List Transaction} {s t : State} {rs : List Response}
    (h : serveAll ts s = .next (t, rs)) : t.pending = s.pending := by
  induction ts generalizing s rs with
  | nil => cases h; rfl
  | cons x xs ih =>
    obtain ⟨u, r, rs', hx, hxs, -⟩ := exists_of_serveAll_cons h
    exact (ih hxs).trans (serve_host hx).1

/-- Serving one transaction passes the record of earlier responses through. -/
theorem serve_withResponses {x : Transaction} {s u : State} {r : Option Response} (h : serve x s = .next (u, r))
    (ys : List Response) : serve x (s.withResponses ys) = .next (u.withResponses ys, r) := by
  rw [(serve_ignoresHost x s [] ys).2, h]
  rfl

/-- Serving one transaction passes what the host has still to issue through. -/
theorem serve_withPending {x : Transaction} {s u : State} {r : Option Response} (h : serve x s = .next (u, r))
    (ts : List Transaction) : serve x (s.withPending ts) = .next (u.withPending ts, r) := by
  rw [(serve_ignoresHost x s ts []).1, h]
  rfl

/-- Serving a list passes the record of earlier responses through. -/
theorem serveAll_withResponses {ts : List Transaction} {s t : State} {rs : List Response}
    (h : serveAll ts s = .next (t, rs)) (ys : List Response) :
    serveAll ts (s.withResponses ys) = .next (t.withResponses ys, rs) := by
  induction ts generalizing s rs with
  | nil => cases h; rfl
  | cons x xs ih =>
    obtain ⟨u, r, rs', hx, hxs, rfl⟩ := exists_of_serveAll_cons h
    exact serveAll_cons (serve_withResponses hx ys) (ih hxs)

/-- With nothing pending a step idles (R24, R155; log entry 2). -/
theorem step_idle {s : State} (h : s.pending = []) : step s = .next s := by
  simp [step, takeTransaction, h]

theorem steps_idle {s : State} (h : s.pending = []) (k : Nat) : steps k s = .next s := by
  induction k with
  | zero => rfl
  | succ k ih => rw [steps_succ (step_idle h), ih]

/-- The simulation behind R53: with a list pending, as many steps as it is long, and any number more, end where serving
the list ends, with its responses appended to the record. -/
theorem steps_of_serveAll {ts : List Transaction} {s t : State} {rs : List Response}
    (h : serveAll ts s = .next (t, rs)) (extra : Nat) :
    steps (ts.length + extra) (s.withPending ts) =
      .next ((t.withPending []).withResponses (s.responses ++ rs)) := by
  induction ts generalizing s t rs with
  | nil =>
    cases h
    rw [steps_idle rfl, List.append_nil]
    rfl
  | cons x xs ih =>
    obtain ⟨u, r, rs', hx, hxs, rfl⟩ := exists_of_serveAll_cons h
    have hstep : step (s.withPending (x :: xs)) = .next ((u.record r).withPending xs) :=
      step_of_serve (s := s.withPending (x :: xs)) rfl (serve_withPending hx xs)
    have hrest : serveAll xs (u.record r) = .next (t.withResponses (u.responses ++ r.toList), rs') :=
      serveAll_withResponses hxs _
    have hlen : (x :: xs).length + extra = xs.length + extra + 1 := by
      simp only [List.length_cons]; omega
    rw [hlen, steps_succ hstep, ih hrest, State.record_responses, (serve_host hx).2, List.append_assoc]
    rfl

/-! The byte-addressed bus (R48). -/

/-- The four bytes of a word, the highest first, are the word. -/
theorem append_wordByte (w : Word) : wordByte w 3 ++ wordByte w 2 ++ wordByte w 1 ++ wordByte w 0 = w := by
  have hhalf : wordByte w 3 ++ wordByte w 2 = w.extractLsb' 16 16 :=
    BitVec.extractLsb'_append_extractLsb'_eq_extractLsb' rfl
  have hthree : w.extractLsb' 16 16 ++ wordByte w 1 = w.extractLsb' 8 24 :=
    BitVec.extractLsb'_append_extractLsb'_eq_extractLsb' rfl
  have hfour : w.extractLsb' 8 24 ++ wordByte w 0 = w.extractLsb' 0 32 :=
    BitVec.extractLsb'_append_extractLsb'_eq_extractLsb' rfl
  rw [hhalf, hthree, hfour, BitVec.extractLsb'_eq_self]

theorem busWord_busLane (order : Equiv.Perm (Fin 4)) (w : Word) : busWord order (busLane order w) = w := by
  simp only [busWord, busLane, Equiv.symm_apply_apply, append_wordByte]

theorem busIndex_busOffset (i : Index) : busIndex (busOffset i) = some i := by
  have hi := i.isLt
  have hdiv : 4 * i.toNat / 4 = i.toNat := by omega
  have haligned : 4 * i.toNat % 4 = 0 ∧ 4 * i.toNat / 4 < 32 := by omega
  rw [busIndex, busOffset, if_pos haligned, hdiv, BitVec.ofNat_toNat, BitVec.setWidth_eq]

/-- A bus write at a register's offset is the `RegWrite` of the word on the lanes. -/
theorem busWrite_busOffset (i : Index) (w : Word) :
    busWrite (busOffset i) (busLane Config.busByteOrder w) = some (.regWrite i w) := by
  rw [busWrite, busIndex_busOffset, busWord_busLane]

/-! The obligations. -/

/-- Settles O6: the port's answer is one function of index and state, and serving a read returns the state it was given. -/
theorem readChangesNothing : Obligations.ReadChangesNothing := by
  intro i s
  refine ⟨s.readResponse i, rfl, s.readResponse_unmapped, ?_, ?_⟩
  · rintro rfl
    exact s.readResponse_index .cmd
  · rintro q - rfl
    exact s.readResponse_index q

/-- Settles O7: one rule of the port for each of the four ranges of the index. -/
theorem writeChangesOnlyItsRegister : Obligations.WriteChangesOnlyItsRegister := by
  intro i v s
  refine ⟨serve_regWrite_unmapped v s, ?_, fun h => serve_regWrite_ignored h v s, fun hlo hhi => ?_⟩
  · rintro rfl
    obtain ⟨t, ht, -⟩ := runCommandWord_end v s
    exact ⟨t, ht, serve_cmdWrite ht⟩
  · obtain ⟨r, rfl⟩ := Reg.exists_index_eq (i := i) (by bv_omega)
    have hop : r ∈ operandRegs := (Reg.mem_operandRegs_iff_index r).mpr ⟨hlo, hhi⟩
    refine ⟨s.writeReg v r, serve_writeTo hop v s, ?_, fun j hj => s.readResponse_writeReg_ne v hj,
      s.writeReg_pending v r, s.writeReg_responses v r⟩
    rw [State.readResponse_index, State.readReg_writeReg_self s v r hop]

/-- Settles O8: from 0x14 on no register is named. -/
theorem unmappedAccessIsBusError : Obligations.UnmappedAccessIsBusError := by
  intro i v s h
  have hi : Config.lastIndex < i := by bv_omega
  exact ⟨serve_regRead_unmapped s hi, serve_regWrite_unmapped v s hi⟩

/-- Settles O15: the fold served with nothing pending keeps nothing pending, and the steps follow it. -/
theorem runIsTheFoldOfTransactions : Obligations.RunIsTheFoldOfTransactions := by
  intro s extra
  obtain ⟨t, rs, h⟩ := serveAll_next s.pending (s.withPending [])
  have hpending : t.pending = [] := serveAll_pending h
  have hidle : t.withPending [] = t := by rw [← hpending]; rfl
  have hrun := steps_of_serveAll h extra
  rw [hidle] at hrun
  exact ⟨t, rs, h, hrun⟩

/-- Settles O24: the first run only delivers an outcome, and a command word does not see an earlier outcome. -/
theorem commandTwiceEqualsOnce : Obligations.CommandTwiceEqualsOnce := by
  intro w s
  obtain ⟨t, ht, hend⟩ := runCommandWord_end w s
  have hagain : runCommandWord w t = runCommandWord w s := by
    rw [hend.deliver, runCommandWord_deliver]
  exact ⟨t, ht, hagain.trans ht⟩

/-- Settles O46: the lane order cancels, and whole-word offsets give back their index. -/
theorem busCarriesWholeWords : Obligations.BusCarriesWholeWords :=
  ⟨busWord_busLane, fun i => ⟨rfl, busIndex_busOffset i⟩, busWrite_busOffset⟩

/-- Settles O12: the two cases of a step. -/
theorem stepServesNextTransaction : Obligations.StepServesNextTransaction :=
  ⟨fun _ => step_idle, fun _ _ _ _ _ => step_of_serve⟩

end Sys2Proof.Machine

end MemoryFamily

/-! PROOFS of the family 30_encoding.md: the decoder against the encoder, the illegal words, the triples of a program, and
what scripts write to operand registers. -/

section EncodingFamily

namespace Sys2Proof

/-! The decoder inverts the encoder on all words (R60 to R62). -/

@[simp] theorem decodeOp_opcode (i : Instr) : decodeOp i.opcode = some i := by cases i <;> rfl

/-- An opcode selects no command but the one whose opcode it is (R62). -/
theorem decodeOp_eq_some_iff (op : BitVec 8) (i : Instr) : decodeOp op = some i ↔ op = i.opcode := by
  constructor
  · intro h
    unfold decodeOp at h
    split_ifs at h <;> cases h <;> assumption
  · rintro rfl
    exact decodeOp_opcode i

/-- A word is its two fields, `zero` above `op` (R60). -/
theorem zeroField_append_opField (w : Word) : zeroField w ++ opField w = w := by
  have hfields : zeroField w ++ opField w = w.extractLsb' 0 32 :=
    BitVec.extractLsb'_append_extractLsb'_eq_extractLsb' rfl
  rw [hfields, BitVec.extractLsb'_eq_self]

/-- What a word that decodes looks like: `zero` is 0 and `op` is the command's opcode (R61). -/
theorem fields_of_decode {w : Word} {i : Instr} (h : decode w = .ok i) : zeroField w = 0 ∧ opField w = i.opcode := by
  unfold decode at h
  split at h
  · cases h
  · next hzero =>
    split at h
    · next hop =>
      cases h
      exact ⟨not_not.mp hzero, (decodeOp_eq_some_iff _ i).mp hop⟩
    · cases h

/-- A word decodes to a command exactly when it is that command's word (R62). -/
theorem decode_eq_ok_iff (w : Word) (i : Instr) : decode w = .ok i ↔ w = encode i := by
  constructor
  · intro h
    obtain ⟨hzero, hop⟩ := fields_of_decode h
    calc w = zeroField w ++ opField w := (zeroField_append_opField w).symm
      _ = encode i := by rw [hzero, hop]; rfl
  · rintro rfl
    exact Machine.decode_encode i

/-- The command words lie in 1 to 7 (R62). -/
theorem encode_toNat_range (i : Instr) : 1 ≤ (encode i).toNat ∧ (encode i).toNat ≤ 7 := by cases i <;> decide

/-- A word outside 1 to 7 is no command (R63). -/
theorem decode_error_of_toNat {w : Word} (h : w.toNat = 0 ∨ 8 ≤ w.toNat) : ∃ e, decode w = .error e := by
  cases hd : decode w with
  | error e => exact ⟨e, rfl⟩
  | ok i =>
    obtain rfl := (decode_eq_ok_iff w i).mp hd
    have hrange := encode_toNat_range i
    omega

end Sys2Proof

namespace Sys2Proof.Machine

theorem State.commandFrame_raise (s : State) (e : ErrorKind) : s.commandFrame (s.raise e) :=
  s.commandFrame_deliver _ _ _ _ _

/-! A program as triples (R70). -/

@[simp] theorem Transaction.toTransaction_toTriple (t : Transaction) : t.toTriple.toTransaction = some t := by
  cases t <;> rfl

/-- A triple that encodes a transaction has 0 in the fields the kind does not use (R70). -/
theorem Triple.eq_toTriple_of_toTransaction {x : Triple} {t : Transaction} (h : x.toTransaction = some t) :
    x = t.toTriple := by
  obtain ⟨kind, i, v⟩ := x
  cases kind with
  | read =>
    obtain ⟨rfl, rfl⟩ : v = 0x00000000#32 ∧ Transaction.regRead i = t := by simpa [Triple.toTransaction] using h
    rfl
  | write =>
    obtain rfl : Transaction.regWrite i v = t := by simpa [Triple.toTransaction] using h
    rfl
  | reset =>
    obtain ⟨⟨rfl, rfl⟩, rfl⟩ : (i = 0x00#5 ∧ v = 0x00000000#32) ∧ Transaction.reset = t := by
      simpa [Triple.toTransaction] using h
    rfl

theorem decodeProgram_encodeProgram (ts : List Transaction) : decodeProgram (encodeProgram ts) = some ts := by
  induction ts with
  | nil => rfl
  | cons t ts ih =>
    have htail : (ts.map Transaction.toTriple).mapM Triple.toTransaction = some ts := ih
    simp [decodeProgram, encodeProgram, htail]

/-! A script's checked transactions (R68). -/

/-- The checked transactions after the first go on from the state it leaves. -/
theorem runChecked_cons {t : Transaction} {expected : Option Word} {cs : List CheckedTransaction} {s u v : State}
    {r : Option Response} {passed : Bool} (h : serve t s = .next (u, r)) (hcs : runChecked cs u = .next (v, passed)) :
    runChecked ((t, expected) :: cs) s = .next (v, assertionHolds expected r && passed) := by
  simp [runChecked, h, hcs, andThen]

/-- `word32` stores an integer modulo 2^32 (R68). -/
theorem uint_word32 (n : Int) : uint (word32 n) = n % 2 ^ 32 := by
  have hnonneg : 0 ≤ n % 2 ^ 32 := Int.emod_nonneg n (by decide)
  rw [uint, word32, BitVec.toNat_ofInt]
  exact Int.toNat_of_nonneg hnonneg

/-- `WR` and then `RD ==` of the same integer writes the register, and the assertion holds (R68; log entry 17). -/
theorem runScript_wr_rdEq {r : Reg} (hr : r ∈ operandRegs) (n : Int) (s : State) :
    runScript [.wr (.name r) n, .rdEq (.name r) n] s = .next (s.writeReg (word32 n) r, true) := by
  have hread := serve_readFrom r (s.writeReg (word32 n) r)
  rw [State.readReg_writeReg_self s _ r hr] at hread
  have hpass : assertionHolds (some (word32 n)) (some (.value (word32 n))) = true := by simp [assertionHolds]
  have hrdEq := runChecked_cons (expected := some (word32 n)) (cs := []) hread rfl
  rw [hpass] at hrdEq
  exact runChecked_cons (serve_writeTo hr (word32 n) s) hrdEq

/-! Writes of different registers (R69). -/

theorem serveAll_writeTo_writeTo {r q : Reg} (hr : r ∈ operandRegs) (hq : q ∈ operandRegs) (v w : Word) (s : State) :
    serveAll [writeTo r v, writeTo q w] s = .next ((s.writeReg v r).writeReg w q, [.ok, .ok]) :=
  serveAll_cons (serve_writeTo hr v s) (serveAll_cons (serve_writeTo hq w _) rfl)

/-- A state is what its registers read, with the host's side of the port (R34). -/
theorem State.eq_of_readReg {s t : State} (hreg : ∀ r, s.readReg r = t.readReg r) (hpending : s.pending = t.pending)
    (hresponses : s.responses = t.responses) : s = t := by
  cases s
  cases t
  rw [State.mk.injEq]
  exact ⟨hreg .status, hreg .a, hreg .m, hreg .ma0, hreg .ma1, hreg .ma2, hreg .ma3, hreg .mb0, hreg .mb1, hreg .mb2,
    hreg .mb3, hreg .v0, hreg .v1, hreg .np, hreg .nc, hreg .r0, hreg .r1, hreg .r2, hreg .r3, hpending, hresponses⟩

theorem State.writeReg_comm {r q : Reg} (hr : r ∈ operandRegs) (hq : q ∈ operandRegs) (hne : r ≠ q) (v w : Word)
    (s : State) : (s.writeReg v r).writeReg w q = (s.writeReg w q).writeReg v r := by
  refine State.eq_of_readReg (fun x => ?_) (by simp) (by simp)
  by_cases hxr : x = r
  · subst hxr
    rw [State.readReg_writeReg_ne _ w q hne, State.readReg_writeReg_self s v x hr,
      State.readReg_writeReg_self _ v x hr]
  by_cases hxq : x = q
  · subst hxq
    rw [State.readReg_writeReg_self _ w x hq, State.readReg_writeReg_ne _ v r hxr,
      State.readReg_writeReg_self s w x hq]
  · rw [State.readReg_writeReg_ne _ w q hxq, State.readReg_writeReg_ne s v r hxr,
      State.readReg_writeReg_ne _ v r hxr, State.readReg_writeReg_ne s w q hxq]

/-! The obligations. -/

/-- Settles O2: the mask keeps every bit, and the decoder inverts the encoder. -/
theorem decodeAndEncodeAgree : Obligations.DecodeAndEncodeAgree := by
  refine ⟨fun w i => ?_, rfl⟩
  have hmask : w &&& 0xFFFFFFFF#32 = w := BitVec.and_allOnes
  rw [hmask, decode_eq_ok_iff]

/-- Settles O3: every such word lies outside 1 to 7, so the decoder rejects it and the port raises. -/
theorem illegalWordRaisesIllegalCommand : Obligations.IllegalWordRaisesIllegalCommand := by
  intro w s hw
  have hrange : w.toNat = 0 ∨ 8 ≤ w.toNat := by omega
  obtain ⟨e, he⟩ := decode_error_of_toNat hrange
  exact ⟨s.raise .illegalCommand, serve_cmdWrite (runCommandWord_of_decode_error he s), s.raise_holds .illegalCommand,
    s.commandFrame_raise .illegalCommand⟩

/-- Settles O4, by induction on the list; a single triple by its kind. -/
theorem programEncodingRoundTrip : Obligations.ProgramEncodingRoundTrip := by
  refine ⟨decodeProgram_encodeProgram, fun x t => ⟨Triple.eq_toTriple_of_toTransaction, ?_⟩⟩
  rintro rfl
  exact t.toTransaction_toTriple

/-- Settles O47: the register reads as the stored pattern, whose unsigned reading is the integer modulo 2^32. -/
theorem scriptWriteReadsBack : Obligations.ScriptWriteReadsBack := by
  intro r n s hr hn
  have hread : (s.writeReg (word32 n) r).readReg r = word32 n := State.readReg_writeReg_self s _ r hr
  have hrange : -2 ^ 31 ≤ n ∧ n < 2 ^ 32 := by simpa [scriptInt] using hn
  refine ⟨s.writeReg (word32 n) r, runScript_wr_rdEq hr n s, fun h0 => ?_, fun h0 => ?_⟩
  · rw [hread, uint_word32]
    omega
  · rw [hread, uint_word32]
    omega

/-- Settles O48: each write reaches its own register only, so both orders read the same everywhere. -/
theorem operandWritesCommute : Obligations.OperandWritesCommute := by
  intro r q v w s hr hq hne
  refine ⟨(s.writeReg v r).writeReg w q, serveAll_writeTo_writeTo hr hq v w s, ?_⟩
  rw [State.writeReg_comm hr hq hne, serveAll_writeTo_writeTo hq hr]

/-- Settles O1: each of the words is its command's encoding. -/
theorem commandWordsDecode : Obligations.CommandWordsDecode :=
  ⟨decode_encode .modinv, decode_encode .mulv, decode_encode .det, decode_encode .adj, decode_encode .inv,
    decode_encode .mulm, decode_encode .solve⟩

end Sys2Proof.Machine

end EncodingFamily

/-! PROOFS of the family 40_modinv.md: MODINV's three outcomes, when it finds an inverse, its table at 26, and Euclid
against the search. -/

section ModinvFamily

namespace Sys2Proof.Machine

/-! MODINV, one equation per outcome (R81, R84, R85). -/

theorem exec_modinv_of_nonpos {s : State} (hm : sint s.m ≤ 0) : exec .modinv s = .next (s.raise .badModulus) := by
  show execModinv s = _
  simp only [execModinv, if_pos hm]

theorem exec_modinv_of_none {s : State} (hm : 0 < sint s.m) (h : modInverse (sint s.a) (sint s.m) = none) :
    exec .modinv s = .next s.returnNone := by
  show execModinv s = _
  simp only [execModinv, if_neg (not_le.mpr hm), h]

theorem exec_modinv_of_some {s : State} {i : Int} (hm : 0 < sint s.m)
    (h : modInverse (sint s.a) (sint s.m) = some i) : exec .modinv s = .next (s.return1 i) := by
  show execModinv s = _
  simp only [execModinv, if_neg (not_le.mpr hm), h]

/-- An inverse is below the modulus, so it fits the result register: the host reads it whole (R30, R81). -/
theorem State.return1_holds_of_modInverse {s : State} {a i : Int} (hm : 0 < sint s.m)
    (h : modInverse a (sint s.m) = some i) : (s.return1 i).holds i 0 0 0 0x00000020#32 := by
  obtain ⟨h1, hlt, -⟩ := (modInverse_eq_some_iff hm).mp h
  have hmax := sint_lt s.m
  exact s.return1_holds (by omega) (by omega)

/-! The search of R81. -/

theorem mem_searchRange_iff {m i : Int} : i ∈ (List.range' 1 (m.toNat - 1)).map Int.ofNat ↔ 1 ≤ i ∧ i < m := by
  simp only [List.mem_map, List.mem_range'_1, Int.ofNat_eq_natCast]
  constructor
  · rintro ⟨n, hn, rfl⟩
    omega
  · rintro ⟨h1, hlt⟩
    exact ⟨i.toNat, by omega, Int.toNat_of_nonneg (by omega)⟩

/-- What the search finds lies in its range and passes its test. -/
theorem searchInverse_spec {a m i : Int} (h : searchInverse a m = some i) :
    1 ≤ i ∧ i < m ∧ nmod (nmod a m * i) m = 1 := by
  obtain ⟨h1, hlt⟩ := mem_searchRange_iff.mp (List.mem_of_find?_eq_some h)
  have htest := List.find?_some h
  exact ⟨h1, hlt, eq_of_beq htest⟩

/-- A search that finds nothing has seen every number of its range fail. -/
theorem searchInverse_none_spec {a m : Int} (h : searchInverse a m = none) :
    ∀ i, 1 ≤ i → i < m → nmod (nmod a m * i) m ≠ 1 := by
  intro i h1 hlt htest
  have hfail := List.find?_eq_none.mp h i (mem_searchRange_iff.mpr ⟨h1, hlt⟩)
  exact hfail (beq_iff_eq.mpr htest)

/-! The table at 26 (R87): the model agrees with it on each listed class, and finds nothing on the others. -/

theorem modInverse_inverseTable : ∀ p ∈ inverseTable, modInverse p.1 26 = some p.2 := by decide

theorem modInverse_eq_none_of_not_listed :
    ∀ r : Fin 26, (∀ p ∈ inverseTable, ((r : Nat) : Int) ≠ p.1) → modInverse (r : Nat) 26 = none := by decide

theorem modInverse_26_of_listed {a : Int} {p : Int × Int} (hp : p ∈ inverseTable) (ha : nmod a 26 = p.1) :
    modInverse a 26 = some p.2 := by
  rw [← modInverse_nmod, ha, modInverse_inverseTable p hp]

theorem modInverse_26_of_not_listed {a : Int} (ha : ∀ p ∈ inverseTable, nmod a 26 ≠ p.1) : modInverse a 26 = none := by
  have h0 : 0 ≤ nmod a 26 := nmod_nonneg a (by decide)
  have hlt : nmod a 26 < 26 := nmod_lt a (by decide)
  obtain ⟨r, hr⟩ : ∃ r : Fin 26, ((r : Nat) : Int) = nmod a 26 :=
    ⟨⟨(nmod a 26).toNat, by omega⟩, Int.toNat_of_nonneg h0⟩
  rw [← modInverse_nmod, ← hr]
  exact modInverse_eq_none_of_not_listed r (hr ▸ ha)

/-! The obligations. -/

/-- Settles O25: the cases of R81; an `i` of `S` is what `modInverse` answers, so it is the smallest without a search. -/
theorem modinvSemantics : Obligations.ModinvSemantics := by
  intro s
  by_cases hm : sint s.m ≤ 0
  · exact ⟨_, exec_modinv_of_nonpos hm, fun _ => s.raise_holds .badModulus, fun h => absurd hm (not_le.mpr h),
      fun h => absurd hm (not_le.mpr h)⟩
  have hpos : 0 < sint s.m := not_le.mp hm
  cases hinv : modInverse (sint s.a) (sint s.m) with
  | none =>
    have hempty := (modInverse_eq_none_iff hpos).mp hinv
    refine ⟨_, exec_modinv_of_none hpos hinv, fun h => absurd h hm, fun _ _ => s.returnNone_holds, ?_⟩
    rintro - i ⟨h1, hlt, htest⟩ -
    exact absurd htest (hempty i h1 (by omega))
  | some k =>
    obtain ⟨hk1, hklt, hktest⟩ := (modInverse_eq_some_iff hpos).mp hinv
    refine ⟨_, exec_modinv_of_some hpos hinv, fun h => absurd h hm,
      fun _ hnone => absurd ⟨hk1, by omega, hktest⟩ (hnone k), ?_⟩
    rintro - i ⟨h1, hlt, htest⟩ -
    have hi : modInverse (sint s.a) (sint s.m) = some i := (modInverse_eq_some_iff hpos).mpr ⟨h1, by omega, htest⟩
    obtain rfl : k = i := Option.some.inj (hinv.symm.trans hi)
    exact State.return1_holds_of_modInverse hpos hinv

/-- Settles O26: `modInverse` finds something exactly for a coprime `a'`, and the test admits only what it finds. -/
theorem modinvFindsExactlyTheCoprime : Obligations.ModinvFindsExactlyTheCoprime := by
  intro s hm
  have hpos : 0 < sint s.m := by omega
  have hcop := modInverse_isSome_iff_gcd (a := nmod (sint s.a) (sint s.m)) hm
  rw [modInverse_nmod] at hcop
  cases hinv : modInverse (sint s.a) (sint s.m) with
  | none =>
    have hgcd : Int.gcd (nmod (sint s.a) (sint s.m)) (sint s.m) ≠ 1 := by simpa [hinv] using hcop
    have hst : s.returnNone.status ≠ 0x00000020#32 := by simp [noneStatus_eq]
    exact ⟨_, exec_modinv_of_none hpos hinv, iff_of_false hst hgcd, fun h => absurd h hst⟩
  | some k =>
    have hgcd : Int.gcd (nmod (sint s.a) (sint s.m)) (sint s.m) = 1 := by simpa [hinv] using hcop
    obtain ⟨hr0, -, -, -, hst⟩ := State.return1_holds_of_modInverse hpos hinv
    refine ⟨_, exec_modinv_of_some hpos hinv, iff_of_true hst hgcd, fun _ i h1 hlt => ?_⟩
    calc nmod (nmod (sint s.a) (sint s.m) * i) (sint s.m) = 1
        ↔ modInverse (sint s.a) (sint s.m) = some i := by simp [modInverse_eq_some_iff hpos, h1, hlt]
      _ ↔ i = uint (s.return1 k).r0 := by rw [hinv, hr0, Option.some.injEq, eq_comm]

/-- Settles O27: the class of `A` is listed or it is not. -/
theorem modinvTableAt26 : Obligations.ModinvTableAt26 := by
  intro s hs
  have hm : sint s.m = 26 := by rw [hs]; rfl
  have hpos : 0 < sint s.m := by omega
  by_cases hlisted : ∃ p ∈ inverseTable, nmod (sint s.a) 26 = p.1
  · obtain ⟨p, hp, hpa⟩ := hlisted
    have hinv : modInverse (sint s.a) (sint s.m) = some p.2 := by rw [hm, modInverse_26_of_listed hp hpa]
    refine ⟨_, exec_modinv_of_some hpos hinv, fun q hq hqa => ?_, fun hnone => absurd hpa (hnone p hp)⟩
    have hpq : p.2 = q.2 :=
      Option.some.inj ((modInverse_26_of_listed hp hpa).symm.trans (modInverse_26_of_listed hq hqa))
    rw [← hpq]
    exact State.return1_holds_of_modInverse hpos hinv
  · have hnone : ∀ p ∈ inverseTable, nmod (sint s.a) 26 ≠ p.1 := fun p hp hpa => hlisted ⟨p, hp, hpa⟩
    have hinv : modInverse (sint s.a) (sint s.m) = none := by rw [hm, modInverse_26_of_not_listed hnone]
    exact ⟨_, exec_modinv_of_none hpos hinv, fun q hq hqa => absurd hqa (hnone q hq), fun _ => s.returnNone_holds⟩

/-- Settles O28: whichever way the search ends, its outcome is what determines `modInverse`. -/
theorem euclidEqualsTheSearch : Obligations.EuclidEqualsTheSearch := by
  intro a m hm
  cases h : searchInverse a m with
  | none => exact (modInverse_eq_none_iff hm).mpr (searchInverse_none_spec h)
  | some i => exact (modInverse_eq_some_iff hm).mpr (searchInverse_spec h)

end Sys2Proof.Machine

end ModinvFamily

/-! PROOFS of the family 41_matrix_ops.md: the matrix commands as the algebra of 2×2 matrices over
`ZMod 26`, INV's two outcomes, and operands of one class. -/

section MatrixFamily

namespace Sys2Proof.Machine

/-! The matrices and digraphs of the model as those of Mathlib over `ZMod 26`: the bridge by which the identities of
R99 and R102 are the library's. -/

/-- The classes modulo 26 of a matrix's entries (R13). -/
def Matrix2.toMatrix (k : Matrix2) : Matrix (Fin 2) (Fin 2) (ZMod 26) := !![(k.a : ZMod 26), k.b; k.c, k.d]

/-- The classes modulo 26 of a digraph's elements (R12). -/
def Digraph.toVec (v : Digraph) : Fin 2 → ZMod 26 := ![(v.x : ZMod 26), v.y]

/-- The matrix `n` times the identity. -/
def Matrix2.scalar (n : Int) : Matrix2 := ⟨n, 0, 0, n⟩

@[simp] theorem Matrix2.toMatrix_scalar (n : Int) : (Matrix2.scalar n).toMatrix = (n : ZMod 26) • 1 := by
  simp [Matrix2.toMatrix, Matrix2.scalar, Matrix.one_fin_two, Matrix.smul_of]

@[simp] theorem Matrix2.toMatrix_normalise (k : Matrix2) : k.normalise.toMatrix = k.toMatrix := by
  simp only [Matrix2.toMatrix, Matrix2.normalise, cast_nmod]

@[simp] theorem Digraph.toVec_normalise (v : Digraph) : v.normalise.toVec = v.toVec := by
  simp only [Digraph.toVec, Digraph.normalise, cast_nmod]

@[simp] theorem Matrix2.toMatrix_mul (k l : Matrix2) : (k.mul l).toMatrix = k.toMatrix * l.toMatrix := by
  simp only [Matrix2.toMatrix, Matrix2.mul, cast_nmod, Matrix.mul_fin_two, Int.cast_add, Int.cast_mul]

@[simp] theorem Matrix2.toVec_mulVec (k : Matrix2) (v : Digraph) :
    (k.mulVec v).toVec = k.toMatrix.mulVec v.toVec := by
  simp only [Matrix2.toMatrix, Digraph.toVec, Matrix2.mulVec, cast_nmod, Matrix.mulVec_fin_two, Int.cast_add,
    Int.cast_mul]
  rfl

@[simp] theorem Matrix2.toMatrix_adjugate (k : Matrix2) : k.adjugate.toMatrix = k.toMatrix.adjugate := by
  simp [Matrix2.toMatrix, Matrix2.adjugate, Matrix.adjugate_fin_two_of]

@[simp] theorem Matrix2.cast_determinant (k : Matrix2) : (k.determinant : ZMod 26) = k.toMatrix.det := by
  simp [Matrix2.toMatrix, Matrix2.determinant, Matrix.det_fin_two_of]

theorem Matrix2.normalise_isReduced (k : Matrix2) : k.normalise.isReduced :=
  ⟨nmod_modulus_range _, nmod_modulus_range _, nmod_modulus_range _, nmod_modulus_range _⟩

/-- Residues of one class are equal (R11). -/
theorem residue_eq_of_cast_eq {n m : Int} (hn : 0 ≤ n ∧ n < 26) (hm : 0 ≤ m ∧ m < 26)
    (h : (n : ZMod 26) = (m : ZMod 26)) : n = m := by
  have hnm := (nmod_eq_iff_zmod n m).mpr h
  rwa [nmod_of_range hn.1 hn.2, nmod_of_range hm.1 hm.2] at hnm

/-- Matrices of Residues are equal when their classes are: how an identity over `ZMod 26` comes back to the model. -/
theorem Matrix2.eq_of_toMatrix_eq {k l : Matrix2} (hk : k.isReduced) (hl : l.isReduced)
    (h : k.toMatrix = l.toMatrix) : k = l := by
  obtain ⟨hka, hkb, hkc, hkd⟩ := hk
  obtain ⟨hla, hlb, hlc, hld⟩ := hl
  have entry (i j : Fin 2) : k.toMatrix i j = l.toMatrix i j := by rw [h]
  have ha := residue_eq_of_cast_eq hka hla (entry 0 0)
  have hb := residue_eq_of_cast_eq hkb hlb (entry 0 1)
  have hc := residue_eq_of_cast_eq hkc hlc (entry 1 0)
  have hd := residue_eq_of_cast_eq hkd hld (entry 1 1)
  cases k; cases l
  exact (Matrix2.mk.injEq ..).mpr ⟨ha, hb, hc, hd⟩

theorem Digraph.eq_of_toVec_eq {v w : Digraph} (hv : v.isReduced) (hw : w.isReduced) (h : v.toVec = w.toVec) :
    v = w := by
  have hx := residue_eq_of_cast_eq hv.1 hw.1 (congrFun h 0)
  have hy := residue_eq_of_cast_eq hv.2 hw.2 (congrFun h 1)
  cases v; cases w
  exact (Digraph.mk.injEq ..).mpr ⟨hx, hy⟩

theorem Matrix2.determinant_range (k : Matrix2) : 0 ≤ k.determinant ∧ k.determinant < 26 := nmod_modulus_range _

theorem Matrix2.scalar_isReduced {n : Int} (h : 0 ≤ n ∧ n < 26) : (Matrix2.scalar n).isReduced :=
  ⟨h, by simp [scalar], by simp [scalar], h⟩

/-! The laws of R102 on the model's matrices. -/

/-- A determinant is the Residue of whatever integer has its class. -/
theorem Matrix2.determinant_eq_nmod {k : Matrix2} {n : Int} (h : k.toMatrix.det = n) :
    k.determinant = nmod n Config.modulus :=
  residue_eq_of_cast_eq k.determinant_range (nmod_modulus_range n) (by rw [cast_nmod, cast_determinant, h])

theorem Matrix2.determinant_mul (k l : Matrix2) :
    (k.mul l).determinant = nmod (k.determinant * l.determinant) Config.modulus :=
  determinant_eq_nmod (by simp [Matrix.det_mul])

theorem Matrix2.mul_mulVec (k l : Matrix2) (v : Digraph) : (k.mul l).mulVec v = k.mulVec (l.mulVec v) :=
  Digraph.eq_of_toVec_eq (mulVec_isReduced _ _) (mulVec_isReduced _ _)
    (by rw [toVec_mulVec, toVec_mulVec, toVec_mulVec, toMatrix_mul, Matrix.mulVec_mulVec])

theorem Matrix2.mul_adjugate (k : Matrix2) : k.mul k.adjugate = scalar k.determinant :=
  eq_of_toMatrix_eq (mul_isReduced _ _) (scalar_isReduced k.determinant_range) (by simp [Matrix.mul_adjugate])

theorem Matrix2.adjugate_mul (k : Matrix2) : k.adjugate.mul k = scalar k.determinant :=
  eq_of_toMatrix_eq (mul_isReduced _ _) (scalar_isReduced k.determinant_range) (by simp [Matrix.adjugate_mul])

/-! Normalising the operands of an operation changes nothing (R90; log entry 11). -/

theorem Matrix2.normalise_mul_normalise (k l : Matrix2) : k.normalise.mul l.normalise = k.mul l :=
  eq_of_toMatrix_eq (mul_isReduced _ _) (mul_isReduced _ _) (by simp)

theorem Matrix2.normalise_mulVec_normalise (k : Matrix2) (v : Digraph) :
    k.normalise.mulVec v.normalise = k.mulVec v :=
  Digraph.eq_of_toVec_eq (mulVec_isReduced _ _) (mulVec_isReduced _ _) (by simp)

@[simp] theorem Matrix2.adjugate_normalise (k : Matrix2) : k.normalise.adjugate = k.adjugate :=
  eq_of_toMatrix_eq (adjugate_isReduced _) (adjugate_isReduced _) (by simp)

@[simp] theorem Matrix2.determinant_normalise (k : Matrix2) : k.normalise.determinant = k.determinant :=
  residue_eq_of_cast_eq (determinant_range _) (determinant_range _) (by simp)

/-! The adjugate without a modulo (R96). -/

theorem nmod_neg_of_range {n : Int} (h : 0 ≤ n ∧ n < 26) :
    nmod (-n) Config.modulus = if n = 0 then 0 else 26 - n := by
  unfold nmod Config.modulus
  split <;> omega

/-- The adjugate of a matrix of Residues, written as R96 writes it. -/
theorem Matrix2.adjugate_of_isReduced {k : Matrix2} (h : k.isReduced) :
    k.adjugate = ⟨k.d, if k.b = 0 then 0 else 26 - k.b, if k.c = 0 then 0 else 26 - k.c, k.a⟩ := by
  obtain ⟨⟨ha0, ha⟩, hb, hc, ⟨hd0, hd⟩⟩ := h
  simp only [Matrix2.adjugate, nmod_of_range ha0 ha, nmod_neg_of_range hb, nmod_neg_of_range hc, nmod_of_range hd0 hd]

/-! The inverse (R17, R98, R99). -/

/-- The `i` of R98: a number of 1..25 that passes the test on the determinant. -/
theorem Matrix2.modInverse_determinant_eq_some_iff (k : Matrix2) (i : Int) :
    modInverse k.determinant Config.modulus = some i ↔
      1 ≤ i ∧ i ≤ 25 ∧ nmod (k.determinant * i) Config.modulus = 1 := by
  have hdet : nmod k.determinant Config.modulus = k.determinant := nmod_nmod _ _
  have hlt : i < Config.modulus ↔ i ≤ 25 := (Int.le_sub_one_iff (m := i) (n := 26)).symm
  rw [modInverse_eq_some_iff (by decide), hdet, hlt]

/-- There is an inverse exactly when the determinant, reduced or not, is coprime with 26 (R14, R98). -/
theorem Matrix2.inverse_isSome_iff_gcd (k : Matrix2) :
    k.inverse.isSome ↔ Int.gcd (k.a * k.d - k.b * k.c) 26 = 1 := by
  have hdet : modInverse k.determinant Config.modulus = modInverse (k.a * k.d - k.b * k.c) Config.modulus :=
    modInverse_nmod _ _
  rw [← modInverse_isSome_iff_gcd (by decide), ← hdet, Option.isSome_iff_ne_none, Option.isSome_iff_ne_none, ne_eq,
    ne_eq, inverse_eq_none_iff]

/-- The adjugate times an inverse of the determinant is a right inverse (R99). -/
theorem Matrix2.toMatrix_mul_inverse {k q : Matrix2} (h : k.inverse = some q) : k.toMatrix * q.toMatrix = 1 := by
  obtain ⟨i, hi, rfl⟩ := (k.inverse_eq_some_iff q).mp h
  obtain ⟨-, -, htest⟩ := (k.modInverse_determinant_eq_some_iff i).mp hi
  have hdet : k.toMatrix.det * i = 1 := by
    rw [← cast_determinant, ← Int.cast_mul, ← cast_nmod, htest, Int.cast_one]
  have hq : Matrix2.toMatrix ⟨nmod (i * k.d) Config.modulus, nmod (i * -k.b) Config.modulus,
      nmod (i * -k.c) Config.modulus, nmod (i * k.a) Config.modulus⟩ = (i : ZMod 26) • k.toMatrix.adjugate := by
    simp [Matrix2.toMatrix, Matrix.adjugate_fin_two_of, Matrix.smul_of]
  rw [hq, Matrix.mul_smul, Matrix.mul_adjugate, smul_smul, mul_comm, hdet, one_smul]

/-- What `inverse` answers, whole: the one matrix of Residues whose product with `K` is the identity (R99). -/
theorem Matrix2.inverse_eq_some_iff_mul_eq_one (k q : Matrix2) :
    k.inverse = some q ↔ q.isReduced ∧ k.toMatrix * q.toMatrix = 1 := by
  refine ⟨fun h => ⟨inverse_isReduced h, toMatrix_mul_inverse h⟩, fun ⟨hred, hmul⟩ => ?_⟩
  have hunit : IsUnit ((k.a * k.d - k.b * k.c : Int) : ZMod 26) := by
    rw [← cast_nmod]
    exact k.cast_determinant ▸ (Matrix.isUnit_iff_isUnit_det _).mp (.of_mul_eq_one _ hmul)
  have hsome : k.inverse.isSome := k.inverse_isSome_iff_gcd.mpr
    (Int.isCoprime_iff_gcd_eq_one.mp ((ZMod.coe_int_isUnit_iff_isCoprime _ 26).mp hunit).symm)
  obtain ⟨p, hp⟩ := Option.isSome_iff_exists.mp hsome
  have hpq : p.toMatrix = q.toMatrix :=
    left_inv_eq_right_inv (mul_eq_one_comm.mp (toMatrix_mul_inverse hp)) hmul
  rw [hp, eq_of_toMatrix_eq (inverse_isReduced hp) hred hpq]

/-- `K` times its inverse is the identity (R99); `inverse_of_inverse` gives the other order. -/
theorem Matrix2.mul_of_inverse {k q : Matrix2} (h : k.inverse = some q) : k.mul q = scalar 1 := by
  refine eq_of_toMatrix_eq (mul_isReduced _ _) (scalar_isReduced (by decide)) ?_
  rw [toMatrix_mul, toMatrix_mul_inverse h, toMatrix_scalar, Int.cast_one, one_smul]

/-- The inverse's inverse is the matrix, normalised (R99). -/
theorem Matrix2.inverse_of_inverse {k q : Matrix2} (h : k.inverse = some q) : q.inverse = some k.normalise :=
  (inverse_eq_some_iff_mul_eq_one _ _).mpr
    ⟨k.normalise_isReduced, by rw [toMatrix_normalise, mul_eq_one_comm, toMatrix_mul_inverse h]⟩

@[simp] theorem Matrix2.inverse_normalise (k : Matrix2) : k.normalise.inverse = k.inverse := by
  ext q
  rw [inverse_eq_some_iff_mul_eq_one, inverse_eq_some_iff_mul_eq_one, toMatrix_normalise]

/-! The commands, one equation each; INV has two. -/

@[simp] theorem exec_mulv (s : State) : exec .mulv s = .next (s.return2 (s.matrixMA.mulVec s.digraphV)) := rfl

@[simp] theorem exec_det (s : State) : exec .det s = .next (s.return1 s.matrixMA.determinant) := rfl

@[simp] theorem exec_adj (s : State) : exec .adj s = .next (s.return4 s.matrixMA.adjugate) := rfl

@[simp] theorem exec_mulm (s : State) : exec .mulm s = .next (s.return4 (s.matrixMA.mul s.matrixMB)) := rfl

theorem exec_inv_of_none {s : State} (h : s.matrixMA.inverse = none) :
    exec .inv s = .next (s.raise .notInvertible) := by
  show execInv s = _
  simp only [execInv, h]

theorem exec_inv_of_some {s : State} {q : Matrix2} (h : s.matrixMA.inverse = some q) :
    exec .inv s = .next (s.return4 q) := by
  show execInv s = _
  simp only [execInv, h]

theorem State.raise_notInvertible_status_ne (s : State) : (s.raise .notInvertible).status ≠ 0x00000080#32 := by
  rw [State.raise_status]
  decide

/-- INV's status tells its two ends apart (R98). -/
theorem exec_inv_succeeds {s t : State} (h : exec .inv s = .next t) (hst : t.status = 0x00000080#32) :
    ∃ q, s.matrixMA.inverse = some q ∧ t = s.return4 q := by
  cases hinv : s.matrixMA.inverse with
  | none =>
    rw [exec_inv_of_none hinv] at h
    cases h
    exact absurd hst s.raise_notInvertible_status_ne
  | some q =>
    rw [exec_inv_of_some hinv] at h
    cases h
    exact ⟨q, rfl, rfl⟩

theorem State.return1_determinant_holds (s : State) (k : Matrix2) :
    (s.return1 k.determinant).holds k.determinant 0 0 0 0x00000020#32 :=
  s.return1_holds k.determinant_range.1 (k.determinant_range.2.trans (by decide))

/-- The determinant delivered is read back whole (R30). -/
theorem State.uint_return1_determinant (s : State) (k : Matrix2) : uint (s.return1 k.determinant).r0 = k.determinant :=
  (s.return1_determinant_holds k).1

/-! The operands a command reads (R90): the raw values, normalised; and what an earlier result reads as when a host
moves it into the operand registers. -/

theorem State.matrixMA_eq_normalise_rawMA (s : State) : s.matrixMA = s.rawMA.normalise := rfl

theorem State.matrixMB_eq_normalise_rawMB (s : State) : s.matrixMB = s.rawMB.normalise := rfl

theorem State.digraphV_eq_normalise (s : State) : s.digraphV = Digraph.normalise ⟨sint s.v0, sint s.v1⟩ := rfl

theorem State.matrixMA_isReduced (s : State) : s.matrixMA.isReduced := s.rawMA.normalise_isReduced

@[simp] theorem State.normalise_matrixMA (s : State) : s.matrixMA.normalise = s.matrixMA := by
  simp only [State.matrixMA, Matrix2.normalise, residueOf, nmod_nmod]

/-- `K` with rows and columns exchanged: SOLVE's reading of a matrix operand, each digraph a column (R111). -/
def Matrix2.transpose (k : Matrix2) : Matrix2 := ⟨k.a, k.c, k.b, k.d⟩

theorem State.plaintextP_eq_transpose (s : State) : s.plaintextP = s.matrixMA.transpose := rfl

theorem State.ciphertextC_eq_transpose (s : State) : s.ciphertextC = s.matrixMB.transpose := rfl

/-- A Residue moved into an operand register is read as itself (R11, R90). -/
theorem residueOf_word {n : Int} (h : 0 ≤ n ∧ n < 26) : residueOf (word n) = n := by
  have hn : nmod n Config.modulus = n := nmod_of_range h.1 h.2
  rw [← hn, residueOf_word_nmod]

theorem State.matrixMA_withMA_return4 (s u : State) {k : Matrix2} (h : k.isReduced) :
    (s.withMA (u.return4 k).r0 (u.return4 k).r1 (u.return4 k).r2 (u.return4 k).r3).matrixMA = k := by
  obtain ⟨ha, hb, hc, hd⟩ := h
  simp only [State.matrixMA, State.withMA, State.return4_r0, State.return4_r1, State.return4_r2, State.return4_r3,
    residueOf_word ha, residueOf_word hb, residueOf_word hc, residueOf_word hd]

theorem State.matrixMB_withMB_return4 (s u : State) {k : Matrix2} (h : k.isReduced) :
    (s.withMB (u.return4 k).r0 (u.return4 k).r1 (u.return4 k).r2 (u.return4 k).r3).matrixMB = k := by
  obtain ⟨ha, hb, hc, hd⟩ := h
  simp only [State.matrixMB, State.withMB, State.return4_r0, State.return4_r1, State.return4_r2, State.return4_r3,
    residueOf_word ha, residueOf_word hb, residueOf_word hc, residueOf_word hd]

theorem State.digraphV_withV_return2 (s u : State) {v : Digraph} (h : v.isReduced) :
    (s.withV (u.return2 v).r0 (u.return2 v).r1).digraphV = v := by
  obtain ⟨hx, hy⟩ := h
  simp only [State.digraphV, State.withV, State.return2_r0, State.return2_r1, residueOf_word hx, residueOf_word hy]

section Moved
variable (s u : State) (w0 w1 w2 w3 : Word)

@[simp] theorem State.matrixMA_withMB : (s.withMB w0 w1 w2 w3).matrixMA = s.matrixMA := rfl

@[simp] theorem State.matrixMA_withV : (s.withV w0 w1).matrixMA = s.matrixMA := rfl

@[simp] theorem State.digraphV_withMA : (s.withMA w0 w1 w2 w3).digraphV = s.digraphV := rfl

/-- The host copies MB into MA. -/
@[simp] theorem State.matrixMA_withMA_mb : (s.withMA s.mb0 s.mb1 s.mb2 s.mb3).matrixMA = s.matrixMB := rfl

/-- The host copies the old MA into MB. -/
@[simp] theorem State.matrixMB_withMB_ma : (s.withMB u.ma0 u.ma1 u.ma2 u.ma3).matrixMB = u.matrixMA := rfl

end Moved

/-! Operands of one class (R102). -/

section Classes
variable {s u : State}

theorem State.matrixMA_of_modEq
    (h : ∀ r ∈ [Reg.ma0, .ma1, .ma2, .ma3], sint (s.readReg r) ≡ sint (u.readReg r) [ZMOD 26]) :
    s.matrixMA = u.matrixMA := by
  have hr : ∀ r ∈ [Reg.ma0, .ma1, .ma2, .ma3], residueOf (s.readReg r) = residueOf (u.readReg r) := h
  simp only [List.forall_mem_cons, State.readReg] at hr
  simp only [State.matrixMA, hr]

theorem State.matrixMB_of_modEq
    (h : ∀ r ∈ [Reg.mb0, .mb1, .mb2, .mb3], sint (s.readReg r) ≡ sint (u.readReg r) [ZMOD 26]) :
    s.matrixMB = u.matrixMB := by
  have hr : ∀ r ∈ [Reg.mb0, .mb1, .mb2, .mb3], residueOf (s.readReg r) = residueOf (u.readReg r) := h
  simp only [List.forall_mem_cons, State.readReg] at hr
  simp only [State.matrixMB, hr]

theorem State.digraphV_of_modEq
    (h : ∀ r ∈ [Reg.v0, .v1], sint (s.readReg r) ≡ sint (u.readReg r) [ZMOD 26]) : s.digraphV = u.digraphV := by
  have hr : ∀ r ∈ [Reg.v0, .v1], residueOf (s.readReg r) = residueOf (u.readReg r) := h
  simp only [List.forall_mem_cons, State.readReg] at hr
  simp only [State.digraphV, hr]

/-- The six matrix commands are functions of the classes modulo 26 of the registers they read, and of the counts. -/
theorem exec_alike_of_modEq {i : Instr} (hi : i ≠ .modinv)
    (h : ∀ r ∈ Reg.readBy i, sint (s.readReg r) ≡ sint (u.readReg r) [ZMOD 26]) (hnp : s.np = u.np)
    (hnc : s.nc = u.nc) : deliverAlike s u (exec i s) (exec i u) := by
  have part : ∀ {l : List Reg}, l ⊆ Reg.readBy i →
      ∀ r ∈ l, sint (s.readReg r) ≡ sint (u.readReg r) [ZMOD 26] := fun hl r hr => h r (hl hr)
  cases i with
  | modinv => exact absurd rfl hi
  | mulv =>
    rw [exec_mulv, exec_mulv, State.matrixMA_of_modEq (part (by decide)), State.digraphV_of_modEq (part (by decide))]
    apply deliverAlike_deliver
  | det =>
    rw [exec_det, exec_det, State.matrixMA_of_modEq h]
    apply deliverAlike_deliver
  | adj =>
    rw [exec_adj, exec_adj, State.matrixMA_of_modEq h]
    apply deliverAlike_deliver
  | inv => exact execInv_alike (State.matrixMA_of_modEq h)
  | mulm =>
    rw [exec_mulm, exec_mulm, State.matrixMA_of_modEq (part (by decide)), State.matrixMB_of_modEq (part (by decide))]
    apply deliverAlike_deliver
  | solve =>
    have hp : s.plaintextP = u.plaintextP := by
      rw [State.plaintextP_eq_transpose, State.matrixMA_of_modEq (part (by decide)), State.plaintextP_eq_transpose]
    have hc : s.ciphertextC = u.ciphertextC := by
      rw [State.ciphertextC_eq_transpose, State.matrixMB_of_modEq (part (by decide)), State.ciphertextC_eq_transpose]
    exact execSolve_alike hp hc hnp hnc

/-- MODINV is a function of `M` and of the class of `A` modulo it (10_state.md R23, 40_modinv.md R83). -/
theorem execModinv_alike_of_modEq (hm : s.m = u.m) (ha : sint s.a ≡ sint u.a [ZMOD sint s.m]) :
    deliverAlike s u (execModinv s) (execModinv u) := by
  have hinv : modInverse (sint s.a) (sint s.m) = modInverse (sint u.a) (sint s.m) := by
    rw [← modInverse_nmod, (nmod_eq_iff _ _ _).mpr ha, modInverse_nmod]
  simp only [execModinv, hinv, ← hm]
  split_ifs
  · apply deliverAlike_deliver
  · cases modInverse (sint u.a) (sint s.m) <;> apply deliverAlike_deliver

end Classes

/-- What is delivered alike has one outcome. -/
theorem deliverAlike.sameOutcome {s u : State} {o p : Result State} (h : deliverAlike s u o p) :
    ∃ s' u', o = .next s' ∧ p = .next u' ∧ s'.sameOutcome u' := by
  obtain ⟨x0, x1, x2, x3, st, ho, hp⟩ := h
  exact ⟨_, _, ho, hp, rfl, rfl, rfl, rfl, rfl⟩

/-! The obligations. -/

/-- Settles O31: the operands are Residues, so each entry of the adjugate is its closed form. -/
theorem adjResult : Obligations.AdjResult := by
  intro s
  refine ⟨_, exec_adj s, ?_⟩
  have h := s.return4_holds s.matrixMA.adjugate_isReduced
  rw [Matrix2.adjugate_of_isReduced s.matrixMA_isReduced] at h ⊢
  exact h

/-- Settles O32: an `i` of the search is what `modInverse` answers for the determinant. -/
theorem invResult : Obligations.InvResult := by
  intro s
  have hsearch := s.matrixMA.modInverse_determinant_eq_some_iff
  have hgcd : (modInverse s.matrixMA.determinant 26).isSome ↔ Int.gcd s.matrixMA.determinant 26 = 1 :=
    modInverse_isSome_iff_gcd (by decide)
  have hex : (∃ i, 1 ≤ i ∧ i ≤ 25 ∧ nmod (s.matrixMA.determinant * i) 26 = 1) ↔
      Int.gcd s.matrixMA.determinant 26 = 1 := by
    rw [← hgcd, Option.isSome_iff_exists]
    exact exists_congr fun i => (hsearch i).symm
  cases hinv : s.matrixMA.inverse with
  | none =>
    refine ⟨_, exec_inv_of_none hinv, hex, fun _ => s.raise_holds .notInvertible, fun i hi _ => ?_⟩
    have hnone := (Matrix2.inverse_eq_none_iff _).mp hinv
    exact absurd ((hsearch i).mpr hi) (by simp [hnone])
  | some q =>
    obtain ⟨k, hk, hq⟩ := (Matrix2.inverse_eq_some_iff _ q).mp hinv
    refine ⟨_, exec_inv_of_some hinv, hex, fun hnone => absurd ((hsearch k).mp hk) (hnone k), fun i hi _ => ?_⟩
    obtain rfl : k = i := Option.some.inj (hk.symm.trans ((hsearch i).mpr hi))
    subst hq
    exact s.return4_holds (Matrix2.inverse_isReduced hinv)

/-- Settles O33: INV succeeds when its matrix has an inverse, and normalising MA changes neither side. -/
theorem invSucceedsIffDeterminantCoprime : Obligations.InvSucceedsIffDeterminantCoprime := by
  intro s
  have hgcd := s.rawMA.inverse_isSome_iff_gcd
  rw [← Matrix2.inverse_normalise, ← State.matrixMA_eq_normalise_rawMA] at hgcd
  cases hinv : s.matrixMA.inverse with
  | none =>
    rw [hinv] at hgcd
    have hne : Int.gcd (s.rawMA.a * s.rawMA.d - s.rawMA.b * s.rawMA.c) 26 ≠ 1 := by simpa using hgcd
    exact ⟨_, exec_inv_of_none hinv, iff_of_false s.raise_notInvertible_status_ne hne,
      fun _ => s.raise_holds .notInvertible⟩
  | some q =>
    rw [hinv] at hgcd
    exact ⟨_, exec_inv_of_some hinv, iff_of_true successStatus_four (hgcd.mp rfl),
      fun h => absurd successStatus_four h⟩

/-- Settles O34: the result is read back as the inverse, and a right inverse of `K` has `K` for its own. -/
theorem invIsATwoSidedInverse : Obligations.InvIsATwoSidedInverse := by
  intro s t h hst
  obtain ⟨q, hq, rfl⟩ := exec_inv_succeeds h hst
  have hred := Matrix2.inverse_isReduced hq
  have hback : q.inverse = some s.matrixMA := by
    rw [Matrix2.inverse_of_inverse hq, State.normalise_matrixMA]
  have hMA := State.matrixMA_withMA_return4 s s hred
  have hone := Matrix2.scalar_isReduced (n := 1) (by decide)
  refine ⟨⟨_, exec_mulm _, ?_⟩, ⟨_, exec_mulm _, ?_⟩, ⟨_, exec_inv_of_some (hMA.symm ▸ hback), ?_⟩⟩
  · rw [State.matrixMA_withMB, State.matrixMB_withMB_return4 s s hred, Matrix2.mul_of_inverse hq]
    exact State.return4_holds _ hone
  · rw [State.matrixMA_withMB, hMA, State.matrixMB_withMB_ma, Matrix2.mul_of_inverse hback]
    exact State.return4_holds _ hone
  · exact State.return4_holds _ s.matrixMA_isReduced

/-- Settles O36: normalised operands give the results of the raw ones, whose formulas the operations are. -/
theorem rawFormulasGiveTheSameResults : Obligations.RawFormulasGiveTheSameResults := by
  intro s
  refine ⟨⟨_, exec_mulv s, ?_⟩, ⟨_, exec_det s, ?_⟩, ⟨_, exec_adj s, ?_⟩, ⟨_, exec_mulm s, ?_⟩⟩
  · rw [State.matrixMA_eq_normalise_rawMA, State.digraphV_eq_normalise, Matrix2.normalise_mulVec_normalise]
    exact s.return2_holds (Matrix2.mulVec_isReduced _ _)
  · rw [State.matrixMA_eq_normalise_rawMA, Matrix2.determinant_normalise]
    exact s.return1_determinant_holds _
  · rw [State.matrixMA_eq_normalise_rawMA, Matrix2.adjugate_normalise]
    exact s.return4_holds (Matrix2.adjugate_isReduced _)
  · rw [State.matrixMA_eq_normalise_rawMA, State.matrixMB_eq_normalise_rawMB, Matrix2.normalise_mul_normalise]
    exact s.return4_holds (Matrix2.mul_isReduced _ _)

/-- Settles O37: one rule for the six matrix commands and one for MODINV. -/
theorem onlyTheClassesMatter : Obligations.OnlyTheClassesMatter :=
  ⟨fun _ _ _ hi h hnp hnc => (exec_alike_of_modEq hi h hnp hnc).sameOutcome,
    fun _ _ hm ha => (execModinv_alike_of_modEq hm ha).sameOutcome⟩

/-- Settles O38: the determinant is multiplicative, and the product is read back as it was delivered. -/
theorem determinantOfAProduct : Obligations.DeterminantOfAProduct := by
  intro s
  refine ⟨_, _, _, _, exec_mulm s, exec_det s, exec_det _, exec_det _, ?_⟩
  rw [State.matrixMA_withMA_return4 s s (Matrix2.mul_isReduced _ _), State.matrixMA_withMA_mb,
    State.uint_return1_determinant, State.uint_return1_determinant, State.uint_return1_determinant]
  exact Matrix2.determinant_mul _ _

/-- Settles O39: applying a product is applying its factors, the right one first. -/
theorem productActsAsComposition : Obligations.ProductActsAsComposition := by
  intro s
  refine ⟨_, _, _, _, exec_mulm s, exec_mulv _, exec_mulv _, exec_mulv _, ?_⟩
  rw [State.matrixMA_withMA_return4 s s (Matrix2.mul_isReduced _ _), State.digraphV_withMA, State.matrixMA_withV,
    State.digraphV_withV_return2 _ _ (Matrix2.mulVec_isReduced _ _), State.matrixMA_withMA_mb, State.digraphV_withMA,
    Matrix2.mul_mulVec]
  exact ⟨rfl, rfl, rfl, rfl, rfl⟩

/-- Settles O40: either product with the adjugate is the determinant times the identity. -/
theorem matrixTimesItsAdjugate : Obligations.MatrixTimesItsAdjugate := by
  intro s
  have hred := Matrix2.adjugate_isReduced s.matrixMA
  have hscalar := Matrix2.scalar_isReduced s.matrixMA.determinant_range
  refine ⟨_, _, _, _, exec_adj s, exec_det s, exec_mulm _, exec_mulm _, ?_⟩
  rw [State.uint_return1_determinant, State.matrixMA_withMB, State.matrixMB_withMB_return4 s s hred,
    State.matrixMA_withMB, State.matrixMA_withMA_return4 s s hred, State.matrixMB_withMB_ma, Matrix2.mul_adjugate,
    Matrix2.adjugate_mul]
  exact ⟨State.return4_holds _ hscalar, State.return4_holds _ hscalar⟩

/-- Settles O29: both components are Residues, so the host reads them as they are. -/
theorem mulvResult : Obligations.MulvResult := fun s =>
  ⟨_, exec_mulv s, s.return2_holds (Matrix2.mulVec_isReduced s.matrixMA s.digraphV)⟩

/-- Settles O30: the determinant is a Residue, so the host reads it as it is. -/
theorem detResult : Obligations.DetResult := fun s => ⟨_, exec_det s, s.return1_determinant_holds s.matrixMA⟩

/-- Settles O35: the four entries are Residues, so the host reads them as they are. -/
theorem mulmResult : Obligations.MulmResult := fun s =>
  ⟨_, exec_mulm s, s.return4_holds (Matrix2.mul_isReduced s.matrixMA s.matrixMB)⟩

end Sys2Proof.Machine

end MatrixFamily

/-! PROOFS of the family 42_solver.md: SOLVE's five ends, the cracker's algebra `K = (K × P) × inv(P)`, and
`hill_crack` on an encrypted text. -/

section SolverFamily

namespace Sys2Proof.Machine

/-! SOLVE, one equation for each of its five ends (R112, R113). -/

theorem uint_inj {v w : Word} : uint v = uint w ↔ v = w := Int.natCast_inj.trans BitVec.toNat_inj

theorem exec_solve_of_counts_ne {s : State} (h : s.np ≠ s.nc) : exec .solve s = .next (s.raise .lengthMismatch) :=
  if_pos (mt uint_inj.mp h)

section EqualCounts
variable {s : State} (heq : s.np = s.nc)
include heq

theorem exec_solve_of_short (h : s.np.toNat < 4) : exec .solve s = .next (s.raise .insufficientData) := by
  have hshort : uint s.np < 4 := Int.ofNat_lt.mpr h
  show execSolve s = _
  simp only [execSolve, ← heq, ne_eq, not_true_eq_false, if_false, if_pos hshort]

theorem exec_solve_of_odd (h4 : 4 ≤ s.np.toNat) (h : s.np.toNat % 2 = 1) :
    exec .solve s = .next (s.raise .invalidLength) := by
  have hshort : ¬ uint s.np < 4 := by unfold uint; omega
  have hodd : uint s.np % 2 = 1 := by unfold uint; omega
  show execSolve s = _
  simp only [execSolve, ← heq, ne_eq, not_true_eq_false, if_false, if_neg hshort, if_pos hodd]

end EqualCounts

/-- The counts pass SOLVE's three length checks (R112, R113). -/
def State.countsPass (s : State) : Prop := s.np = s.nc ∧ 4 ≤ s.np.toNat ∧ s.np.toNat % 2 = 0

/-- Past the length checks, SOLVE is its step 4 alone. -/
theorem exec_solve_of_countsPass {s : State} (h : s.countsPass) :
    exec .solve s = .next ((s.plaintextP.inverse).elim (s.raise .nonInvertiblePlaintext)
      fun q => s.return4 (s.ciphertextC.mul q)) := by
  obtain ⟨heq, h4, heven⟩ := h
  have hshort : ¬ uint s.np < 4 := by unfold uint; omega
  have hodd : ¬ uint s.np % 2 = 1 := by unfold uint; omega
  show execSolve s = _
  simp only [execSolve, ← heq, ne_eq, not_true_eq_false, if_false, if_neg hshort, if_neg hodd]
  cases s.plaintextP.inverse <;> rfl

theorem exec_solve_of_none {s : State} (h : s.countsPass) (hinv : s.plaintextP.inverse = none) :
    exec .solve s = .next (s.raise .nonInvertiblePlaintext) := by
  rw [exec_solve_of_countsPass h, hinv, Option.elim_none]

theorem exec_solve_of_some {s : State} {q : Matrix2} (h : s.countsPass) (hinv : s.plaintextP.inverse = some q) :
    exec .solve s = .next (s.return4 (s.ciphertextC.mul q)) := by
  rw [exec_solve_of_countsPass h, hinv, Option.elim_some]

/-! The cracker's algebra (R116): a matrix of columns, and a right factor undone by its inverse. -/

/-- The matrix with the digraphs for columns (R111). -/
def Matrix2.ofColumns (v w : Digraph) : Matrix2 := ⟨v.x, w.x, v.y, w.y⟩

/-- Multiplying digraph by digraph is multiplying the matrix of columns (R92, R100). -/
theorem Matrix2.mul_ofColumns (k : Matrix2) (v w : Digraph) :
    k.mul (ofColumns v w) = ofColumns (k.mulVec v) (k.mulVec w) := rfl

theorem Matrix2.mul_mul_inverse {k p q : Matrix2} (hk : k.isReduced) (h : p.inverse = some q) :
    (k.mul p).mul q = k :=
  eq_of_toMatrix_eq (mul_isReduced _ _) hk
    (by rw [toMatrix_mul, toMatrix_mul, mul_assoc, toMatrix_mul_inverse h, mul_one])

/-- SOLVE on a plaintext that can be inverted and on its product with `K` ends with `K` (R112, R116). -/
theorem exec_solve_of_mul {s : State} {k : Matrix2} (h : s.countsPass) (hk : k.isReduced)
    (hc : s.ciphertextC = k.mul s.plaintextP) (hp : s.plaintextP.inverse.isSome) :
    exec .solve s = .next (s.return4 k) := by
  obtain ⟨q, hq⟩ := Option.isSome_iff_exists.mp hp
  rw [exec_solve_of_some h hq, hc, Matrix2.mul_mul_inverse hk hq]

/-! The search of R112's step 4 decides the inverse. -/

theorem Matrix2.inverse_eq_none_of_search {k : Matrix2}
    (h : ∀ i, ¬ (1 ≤ i ∧ i ≤ 25 ∧ nmod (k.determinant * i) Config.modulus = 1)) : k.inverse = none := by
  rw [inverse_eq_none_iff, Option.eq_none_iff_forall_ne_some]
  exact fun i hi => h i ((k.modInverse_determinant_eq_some_iff i).mp hi)

theorem Matrix2.inverse_eq_some_of_search {k : Matrix2} {i : Int}
    (h : 1 ≤ i ∧ i ≤ 25 ∧ nmod (k.determinant * i) Config.modulus = 1) :
    k.inverse = some ⟨nmod (i * k.d) Config.modulus, nmod (i * -k.b) Config.modulus,
      nmod (i * -k.c) Config.modulus, nmod (i * k.a) Config.modulus⟩ :=
  (inverse_eq_some_iff _ _).mpr ⟨i, (k.modInverse_determinant_eq_some_iff i).mpr h, rfl⟩

/-! The obligations on SOLVE. -/

/-- Settles O41: one equation per check; past them, the search decides whether `P` has an inverse and which. -/
theorem solveSemantics : Obligations.SolveSemantics := by
  intro s
  by_cases heq : s.np = s.nc
  case neg =>
    refine ⟨_, exec_solve_of_counts_ne heq, ?_⟩
    dsimp only
    rw [if_pos (mt BitVec.toNat_inj.mp heq)]
    exact s.raise_holds .lengthMismatch
  have hnp : ¬ s.np.toNat ≠ s.nc.toNat := not_not.mpr (congrArg BitVec.toNat heq)
  by_cases hshort : s.np.toNat < 4
  case pos =>
    refine ⟨_, exec_solve_of_short heq hshort, ?_⟩
    dsimp only
    rw [if_neg hnp, if_pos hshort]
    exact s.raise_holds .insufficientData
  by_cases hodd : s.np.toNat % 2 = 1
  case pos =>
    refine ⟨_, exec_solve_of_odd heq (by omega) hodd, ?_⟩
    dsimp only
    rw [if_neg hnp, if_neg hshort, if_pos hodd]
    exact s.raise_holds .invalidLength
  have hcounts : s.countsPass := ⟨heq, by omega, by omega⟩
  refine ⟨_, exec_solve_of_countsPass hcounts, ?_⟩
  dsimp only
  rw [if_neg hnp, if_neg hshort, if_neg hodd]
  refine ⟨fun hnone => ?_, fun i hi _ => ?_⟩
  · rw [Matrix2.inverse_eq_none_of_search (k := s.plaintextP) hnone, Option.elim_none]
    exact s.raise_holds .nonInvertiblePlaintext
  · rw [Matrix2.inverse_eq_some_of_search (k := s.plaintextP) hi, Option.elim_some, neg_mul_comm, neg_mul_comm]
    exact s.return4_holds (Matrix2.mul_isReduced _ _)

/-- Settles O42: INV inverts `P`, and MULM reads back the inverse that SOLVE multiplies by. -/
theorem solveEqualsInvThenMulm : Obligations.SolveEqualsInvThenMulm := by
  intro s heq h4 heven
  have hcounts : s.countsPass := ⟨heq, h4, heven⟩
  have hMA : (s.withMA s.ma0 s.ma2 s.ma1 s.ma3).matrixMA = s.plaintextP := rfl
  cases hinv : s.plaintextP.inverse with
  | none =>
    exact ⟨_, _, exec_solve_of_none hcounts hinv, exec_inv_of_none (hMA ▸ hinv),
      .inl ⟨errorStatus_eq .notInvertible, s.raise_holds .nonInvertiblePlaintext⟩⟩
  | some q =>
    refine ⟨_, _, exec_solve_of_some hcounts hinv, exec_inv_of_some (hMA ▸ hinv),
      .inr ⟨successStatus_four, _, exec_mulm _, ?_⟩⟩
    rw [State.matrixMB_withMB_return4 _ _ (Matrix2.inverse_isReduced hinv)]
    exact ⟨rfl, rfl, rfl, rfl, rfl⟩

@[simp] theorem State.ciphertextC_withCounts (s : State) (n m : Word) :
    (s.withCounts n m).ciphertextC = s.ciphertextC := rfl

/-- What two digraph results read as when a host moves them into MB: the columns of `C` (R111). -/
theorem State.ciphertextC_withMB_return2 (s u u' : State) {v w : Digraph} (hv : v.isReduced) (hw : w.isReduced) :
    (s.withMB (u.return2 v).r0 (u.return2 v).r1 (u'.return2 w).r0 (u'.return2 w).r1).ciphertextC =
      .ofColumns v w := by
  obtain ⟨hvx, hvy⟩ := hv
  obtain ⟨hwx, hwy⟩ := hw
  simp only [State.ciphertextC, State.withMB, State.return2_r0, State.return2_r1, residueOf_word hvx,
    residueOf_word hvy, residueOf_word hwx, residueOf_word hwy, Matrix2.ofColumns]

/-- Settles O43: MULV's two results are the columns of the key times `P`. -/
theorem solveRecoversTheKey : Obligations.SolveRecoversTheKey := by
  intro s k0 k1 k2 k3 p0 p1 p2 p3 n h4 heven hgcd
  have hkey := (s.withMA k0 k1 k2 k3).matrixMA_isReduced
  have hP : (Matrix2.normalise ⟨sint p0, sint p2, sint p1, sint p3⟩).inverse.isSome := by
    rw [Matrix2.inverse_normalise]
    exact (Matrix2.inverse_isSome_iff_gcd _).mpr hgcd
  refine ⟨_, _, _, exec_mulv _, exec_mulv _, exec_solve_of_mul ⟨rfl, h4, heven⟩ hkey ?_ hP,
    State.return4_holds _ hkey⟩
  rw [State.ciphertextC_withCounts,
    State.ciphertextC_withMB_return2 _ _ _ (Matrix2.mulVec_isReduced _ _) (Matrix2.mulVec_isReduced _ _)]
  exact (Matrix2.mul_ofColumns _ _ _).symm

/-! The cracker's transactions (45_host_software.md R128). -/

/-- Two lists of transactions, one after the other (R53). -/
theorem serveAll_append {ts us : List Transaction} {s t u : State} {rs qs : List Response}
    (h : serveAll ts s = .next (t, rs)) (h' : serveAll us t = .next (u, qs)) :
    serveAll (ts ++ us) s = .next (u, rs ++ qs) := by
  induction ts generalizing s rs with
  | nil => cases h; exact h'
  | cons x xs ih =>
    obtain ⟨v, r, rs', hx, hxs, rfl⟩ := exists_of_serveAll_cons h
    rw [List.append_assoc]
    exact serveAll_cons hx (ih hxs)

/-- `RD R0 ; RD R1 ; RD R2 ; RD R3`. -/
theorem serveAll_readResults (s : State) :
    serveAll readResults s = .next (s, [.value s.r0, .value s.r1, .value s.r2, .value s.r3]) :=
  serveAll_cons (serve_readFrom .r0 s) (serveAll_cons (serve_readFrom .r1 s)
    (serveAll_cons (serve_readFrom .r2 s) (serveAll_cons (serve_readFrom .r3 s) rfl)))

/-- SOLVE's operands written: the counts, two digraphs of plaintext and two of ciphertext (R111, R128). -/
def State.withCrack (s : State) (counts : Word × Word) (v w x y : Residue × Residue) : State :=
  let loaded := (s.withCounts counts.1 counts.2).withMA (residueWord v.1) (residueWord v.2) (residueWord w.1)
    (residueWord w.2)
  loaded.withMB (residueWord x.1) (residueWord x.2) (residueWord y.1) (residueWord y.2)

section Crack
variable (s : State) (counts : Word × Word) (v w x y : Residue × Residue) (ps cs : List Residue)

theorem State.plaintextP_withCrack :
    (s.withCrack counts v w x y).plaintextP = .ofColumns (digraphOf v) (digraphOf w) := by
  simp only [State.plaintextP, State.withCrack, State.withMA, State.withMB, residueOf_residueWord, digraphOf,
    Matrix2.ofColumns]

theorem State.ciphertextC_withCrack :
    (s.withCrack counts v w x y).ciphertextC = .ofColumns (digraphOf x) (digraphOf y) := by
  simp only [State.ciphertextC, State.withCrack, State.withMB, residueOf_residueWord, digraphOf, Matrix2.ofColumns]

/-- `LDMA` of the first four letters of a text (R128). -/
theorem serveAll_loadSequence_MA :
    serveAll (loadSequence [.ma0, .ma1, .ma2, .ma3] (v.1 :: v.2 :: w.1 :: w.2 :: ps)) s =
      .next (s.withMA (residueWord v.1) (residueWord v.2) (residueWord w.1) (residueWord w.2),
        [.ok, .ok, .ok, .ok]) := rfl

/-- `LDMB` of the first four letters of a text (R128). -/
theorem serveAll_loadSequence_MB :
    serveAll (loadSequence [.mb0, .mb1, .mb2, .mb3] (x.1 :: x.2 :: y.1 :: y.2 :: cs)) s =
      .next (s.withMB (residueWord x.1) (residueWord x.2) (residueWord y.1) (residueWord y.2),
        [.ok, .ok, .ok, .ok]) := rfl

/-- The cracker's responses: the ten loads and the command acknowledged, then `STATUS` and the results (R128). -/
theorem serveAll_crackTransactions {t : State}
    (h : exec .solve (s.withCrack (hostCounts (ps.length + 4) (cs.length + 4)) v w x y) = .next t) :
    serveAll (crackTransactions (v.1 :: v.2 :: w.1 :: w.2 :: ps) (x.1 :: x.2 :: y.1 :: y.2 :: cs)) s =
      .next (t, List.replicate 11 .ok ++ [.value t.status, .value t.r0, .value t.r1, .value t.r2, .value t.r3]) := by
  have hcounts : serveAll [writeTo .np _, writeTo .nc _] s = .next (s.withCounts _ _, [.ok, .ok]) :=
    serveAll_writeTo_writeTo (by decide) (by decide) (hostCounts (ps.length + 4) (cs.length + 4)).1
      (hostCounts (ps.length + 4) (cs.length + 4)).2 s
  have hloads := serveAll_append (serveAll_append hcounts (serveAll_loadSequence_MA _ v w ps))
    (serveAll_loadSequence_MB _ x y cs)
  have hrun : serveAll [issue .solve, readFrom .status] _ = .next (t, [.ok, .value t.status]) :=
    serveAll_cons (serve_issue h) (serveAll_cons (serve_readFrom .status t) rfl)
  exact (serveAll_append (serveAll_append hloads hrun) (serveAll_readResults t) :)

end Crack

/-- When SOLVE succeeds on the two texts' first digraphs, the host answers its four results (R128). -/
theorem hillCrack_of_solve {plain cipher : List Char} {s t : State} {v w x y : Residue × Residue}
    {ps cs : List Residue} {k : Matrix2} (hplain : isAscii plain = true) (hcipher : isAscii cipher = true)
    (hp : textToResidues plain = v.1 :: v.2 :: w.1 :: w.2 :: ps)
    (hc : textToResidues cipher = x.1 :: x.2 :: y.1 :: y.2 :: cs)
    (h : exec .solve (s.withCrack (hostCounts (ps.length + 4) (cs.length + 4)) v w x y) = .next t)
    (ht : t.holds k.a k.b k.c k.d 0x00000080#32) : hillCrack plain cipher s = .next (t, .ok k) := by
  obtain ⟨ha, hb, hc', hd, hst⟩ := ht
  have hok : ErrorKind.ofCode (statusErr 0x00000080#32) = none := by decide
  rw [hillCrack, if_neg (by simp [hplain, hcipher]), hp, hc, serveAll_crackTransactions s v w x y ps cs h]
  simp [andThen, readValue, responseValues, readMatrix, List.replicate, hst, hok, ha, hb, hc', hd]

/-! `hill_encrypt` (R123, R124), and what SOLVE reads of its text. -/

/-- The text of every digraph's product with the key. -/
theorem hillEncrypt_mulResidues {text : List Char} (key : Matrix2) (s : State) (hascii : isAscii text = true) :
    ∃ t, hillEncrypt text key s = .next (t, .ok (residuesToText
      ((digraphs (padResidues (textToResidues text))).flatMap (mulResidues key.normalise)))) := by
  rw [hillEncrypt, if_neg (by simp [hascii])]
  cases digraphs (padResidues (textToResidues text)) with
  | nil => exact ⟨s, rfl⟩
  | cons v vs =>
    obtain ⟨t, ht, -⟩ := mulvLoop_spec true (v :: vs) (s.withMA (operandWord key.a Config.modulus)
      (operandWord key.b Config.modulus) (operandWord key.c Config.modulus) (operandWord key.d Config.modulus))
    rw [matrixMA_loadKey] at ht
    exact ⟨t, by simp only [serveAll_loadKey, andThen, ht]⟩

theorem length_digraphs (rs : List Residue) : (digraphs rs).length = rs.length / 2 := by
  induction rs using digraphs.induct with
  | case1 x y rs ih => simp only [digraphs, List.length_cons, ih]; omega
  | case2 x => simp [digraphs]
  | case3 => rfl

theorem length_flatMap_mulResidues (k : Matrix2) (vs : List (Residue × Residue)) :
    (vs.flatMap (mulResidues k)).length = vs.length * 2 := by
  simp [List.length_flatMap, mulResidues]

/-- The digraph of `mulResidues`, as a pair (R92). -/
def mulDigraph (k : Matrix2) (v : Residue × Residue) : Residue × Residue :=
  (Fin.ofNat 26 (k.mulVec (digraphOf v)).x.toNat, Fin.ofNat 26 (k.mulVec (digraphOf v)).y.toNat)

/-- A Residue survives being an element of `Fin 26` (R11). -/
theorem val_ofNat_toNat {n : Int} (h : 0 ≤ n ∧ n < 26) : ((Fin.ofNat 26 n.toNat).val : Int) = n := by
  simp only [Fin.ofNat]
  omega

/-- A product's Residues are the product (R12). -/
theorem digraphOf_mulDigraph (k : Matrix2) (v : Residue × Residue) :
    digraphOf (mulDigraph k v) = k.mulVec (digraphOf v) := by
  obtain ⟨hx, hy⟩ := k.mulVec_isReduced (digraphOf v)
  exact (Digraph.mk.injEq ..).mpr ⟨val_ofNat_toNat hx, val_ofNat_toNat hy⟩

/-- SOLVE on two digraphs and their products with `K` (R116). -/
theorem exec_solve_withCrack (s : State) {counts : Word × Word} {v w : Residue × Residue} {k : Matrix2}
    (hcounts : counts.1 = counts.2 ∧ 4 ≤ counts.1.toNat ∧ counts.1.toNat % 2 = 0) (hk : k.isReduced)
    (hgcd : Int.gcd ((v.1.val : Int) * w.2.val - w.1.val * v.2.val) 26 = 1) :
    ∃ t, exec .solve (s.withCrack counts v w (mulDigraph k v) (mulDigraph k w)) = .next t ∧
      t.holds k.a k.b k.c k.d 0x00000080#32 := by
  refine ⟨_, exec_solve_of_mul hcounts hk ?_ ?_, State.return4_holds _ hk⟩
  · rw [State.ciphertextC_withCrack, State.plaintextP_withCrack, digraphOf_mulDigraph, digraphOf_mulDigraph,
      Matrix2.mul_ofColumns]
  · rw [State.plaintextP_withCrack]
    exact (Matrix2.inverse_isSome_iff_gcd _).mpr hgcd

/-- The counts of two texts of one even length of at least 4 pass SOLVE's length checks (R113, U11). -/
theorem hostCounts_of_even {np nc : Nat} (h : np = nc) (h4 : 4 ≤ np) (heven : np % 2 = 0) :
    (hostCounts np nc).1 = (hostCounts np nc).2 ∧ 4 ≤ (hostCounts np nc).1.toNat ∧
      (hostCounts np nc).1.toNat % 2 = 0 := by
  obtain ⟨heq, hfour, -, hparity, -⟩ := hostCounts_spec np nc
  exact ⟨heq.mpr h, hfour.mpr h4, hparity.trans heven⟩

/-- Settles O54: the ciphertext is as long as the text, and its first two digraphs are the products of the text's. -/
theorem hostCrackReturnsTheKey : Obligations.HostCrackReturnsTheKey := by
  intro text key p0 p1 p2 p3 rest s hascii htext heven hgcd
  have hpad : padResidues (textToResidues text) = p0 :: p1 :: p2 :: p3 :: rest := by
    rw [htext, padResidues, if_neg]
    simp only [List.length_cons]
    omega
  obtain ⟨t, ht⟩ := hillEncrypt_mulResidues key s hascii
  rw [hpad] at ht
  have hlen : rest.length + 4 = ((digraphs rest).flatMap (mulResidues key.normalise)).length + 4 := by
    rw [length_flatMap_mulResidues, length_digraphs]
    omega
  obtain ⟨u, hu, hholds⟩ := exec_solve_withCrack t (v := (p0, p1)) (w := (p2, p3))
    (hostCounts_of_even hlen (by omega) (by omega)) key.normalise_isReduced hgcd
  exact ⟨t, _, u, ht, hillCrack_of_solve hascii (isAscii_residuesToText _) htext (textToResidues_residuesToText _) hu
    hholds⟩

end Sys2Proof.Machine

end SolverFamily

/-! PROOFS of the family 45_host_software.md: a digraph decrypted, the letter codec, `hill_encrypt` and `hill_decrypt`
through the port, and `mod_inverse`. -/

section HostFamily

namespace Sys2Proof.Machine

/-! Decrypting a digraph undoes encrypting it (R127). -/

theorem Matrix2.inverse_mulVec_mulVec {k q : Matrix2} (h : k.inverse = some q) (v : Digraph) :
    q.mulVec (k.mulVec v) = v.normalise := by
  have hone : q.toMatrix * k.toMatrix = 1 := mul_eq_one_comm.mp (toMatrix_mul_inverse h)
  refine Digraph.eq_of_toVec_eq (mulVec_isReduced _ _) ⟨nmod_modulus_range _, nmod_modulus_range _⟩ ?_
  rw [toVec_mulVec, toVec_mulVec, Matrix.mulVec_mulVec, hone, Matrix.one_mulVec, Digraph.toVec_normalise]

theorem Digraph.normalise_of_isReduced {v : Digraph} (h : v.isReduced) : v.normalise = v := by
  obtain ⟨⟨hx0, hx⟩, hy0, hy⟩ := h
  simp only [Digraph.normalise, nmod_of_range hx0 hx, nmod_of_range hy0 hy]

theorem Matrix2.normalise_of_isReduced {k : Matrix2} (h : k.isReduced) : k.normalise = k :=
  eq_of_toMatrix_eq k.normalise_isReduced h k.toMatrix_normalise

theorem State.digraphV_isReduced (s : State) : s.digraphV.isReduced :=
  ⟨nmod_modulus_range _, nmod_modulus_range _⟩

theorem digraphOf_isReduced (v : Residue × Residue) : (digraphOf v).isReduced := by
  obtain ⟨x, y⟩ := v
  simp only [Digraph.isReduced, digraphOf]
  omega

theorem digraphOf_injective : Function.Injective digraphOf := by
  rintro ⟨x, y⟩ ⟨x', y'⟩ h
  simp only [digraphOf, Digraph.mk.injEq, Nat.cast_inj, Fin.val_inj] at h
  exact Prod.ext h.1 h.2

/-- The inverse takes the product's Residues back to the digraph's (R127). -/
theorem mulDigraph_inverse {k q : Matrix2} (h : k.inverse = some q) (v : Residue × Residue) :
    mulDigraph q (mulDigraph k v) = v := by
  apply digraphOf_injective
  rw [digraphOf_mulDigraph, digraphOf_mulDigraph, Matrix2.inverse_mulVec_mulVec h,
    Digraph.normalise_of_isReduced (digraphOf_isReduced v)]

/-! The digraphs of a list of Residues, and of a list of products (R123, R126). -/

theorem length_padResidues_even (rs : List Residue) : (padResidues rs).length % 2 = 0 := by
  unfold padResidues
  split
  · rw [List.length_append, List.length_singleton]
    omega
  · omega

/-- The digraphs of an even list, one after another, are the list. -/
theorem flatMap_digraphs {rs : List Residue} (h : rs.length % 2 = 0) :
    ((digraphs rs).flatMap fun v => [v.1, v.2]) = rs := by
  induction rs using digraphs.induct with
  | case1 x y rs ih =>
    have hrs : rs.length % 2 = 0 := by
      rw [List.length_cons, List.length_cons] at h
      omega
    rw [digraphs, List.flatMap_cons, ih hrs]
    rfl
  | case2 x => cases h
  | case3 => rfl

theorem digraphs_flatMap_mulResidues (k : Matrix2) (vs : List (Residue × Residue)) :
    digraphs (vs.flatMap (mulResidues k)) = vs.map (mulDigraph k) := by
  induction vs with
  | nil => rfl
  | cons v vs ih =>
    rw [List.map_cons, ← ih]
    rfl

/-- Multiplying by a key and then by its inverse gives an even list back (R127). -/
theorem flatMap_mulResidues_inverse {k q : Matrix2} (h : k.inverse = some q) {rs : List Residue}
    (heven : rs.length % 2 = 0) :
    (digraphs ((digraphs rs).flatMap (mulResidues k))).flatMap (mulResidues q) = rs := by
  have hback (v : Residue × Residue) : mulResidues q (mulDigraph k v) = [v.1, v.2] :=
    congrArg (fun w : Residue × Residue => [w.1, w.2]) (mulDigraph_inverse h v)
  rw [digraphs_flatMap_mulResidues, List.flatMap_map]
  simp only [hback, flatMap_digraphs heven]

/-- A product's Residues do not depend on which representatives the key has (R90). -/
theorem mulResidues_normalise (k : Matrix2) (v : Residue × Residue) : mulResidues k.normalise v = mulResidues k v := by
  have hv := Digraph.normalise_of_isReduced (digraphOf_isReduced v)
  have hmul : k.normalise.mulVec (digraphOf v) = k.mulVec (digraphOf v) := by
    rw [← k.normalise_mulVec_normalise, hv]
  rw [mulResidues, mulResidues, hmul]

/-- What `hill_encrypt` answers: each digraph's product with the key as it was given (R123, R124). -/
theorem hillEncrypt_products {text : List Char} (key : Matrix2) (s : State) (hascii : isAscii text = true) :
    ∃ t, hillEncrypt text key s = .next (t, .ok (residuesToText
      ((digraphs (padResidues (textToResidues text))).flatMap (mulResidues key)))) := by
  rw [← funext (mulResidues_normalise key)]
  exact hillEncrypt_mulResidues key s hascii

/-! The letter codec (R120, R121). -/

/-- The letter of a letter's Residue is that letter, in upper case. -/
theorem residueLetter_of_letterResidue {c : Char} {r : Residue} (h : letterResidue c = some r) :
    residueLetter r = if 97 ≤ c.toNat then Char.ofNat (c.toNat - 32) else c := by
  unfold letterResidue at h
  split at h
  · next hupper =>
    obtain rfl := Option.some.inj h
    have hval : 65 + (Fin.ofNat 26 (c.toNat - 65)).val = c.toNat := by
      rw [Fin.val_ofNat]
      omega
    rw [if_neg (by omega), residueLetter, hval, Char.ofNat_toNat]
  split at h
  · next hlower =>
    obtain rfl := Option.some.inj h
    have hval : 65 + (Fin.ofNat 26 (c.toNat - 97)).val = c.toNat - 32 := by
      rw [Fin.val_ofNat]
      omega
    rw [if_pos hlower.1, residueLetter, hval]
  · cases h

/-! What the host reads of the responses (20_memory.md R42, R43). -/

section Responses
variable (w : Word) (rs : List Response) (k : Nat)

@[simp] theorem readValue_ok : readValue (.ok :: rs) k = readValue rs k := rfl

@[simp] theorem readValue_value_zero : readValue (.value w :: rs) 0 = w := rfl

@[simp] theorem readValue_value_succ : readValue (.value w :: rs) (k + 1) = readValue rs k := rfl

/-- A matrix delivered is the matrix the host reads (R30). -/
theorem readMatrix_return4 (s : State) {q : Matrix2} (h : q.isReduced) :
    readMatrix [.value (s.return4 q).r0, .value (s.return4 q).r1, .value (s.return4 q).r2, .value (s.return4 q).r3] 0 =
      q := by
  obtain ⟨ha, hb, hc, hd, -⟩ := s.return4_holds h
  simp only [readMatrix, zero_add, readValue_value_zero, readValue_value_succ, ha, hb, hc, hd]

end Responses

/-! `hill_decrypt` (R125, R126): the key, then the text. -/

/-- MA loaded with a key by `LDMA` (R131). -/
def State.withKey (s : State) (k : Matrix2) : State :=
  s.withMA (operandWord k.a Config.modulus) (operandWord k.b Config.modulus) (operandWord k.c Config.modulus)
    (operandWord k.d Config.modulus)

theorem State.matrixMA_withKey (s : State) (k : Matrix2) : (s.withKey k).matrixMA = k.normalise := matrixMA_loadKey k s

/-- `LDMA`, `INV`, `RD STATUS`: the five writes acknowledged, then what INV leaves in `STATUS` (R125). -/
theorem serveAll_keyCheck {k : Matrix2} {s t : State} (h : exec .inv (s.withKey k) = .next t) :
    serveAll (loadKey k ++ [issue .inv, readFrom .status]) s =
      .next (t, [.ok, .ok, .ok, .ok, .ok, .value t.status]) :=
  have hcheck : serveAll [issue .inv, readFrom .status] (s.withKey k) = .next (t, [.ok, .value t.status]) :=
    serveAll_cons (serve_issue h) (serveAll_cons (serve_readFrom .status t) rfl)
  (serveAll_append (serveAll_loadKey k s) hcheck :)

section Decrypt
variable {key q : Matrix2} {text : List Char} (s : State)

/-- A key without an inverse: the text is not looked at (R125, step 1). -/
theorem hillDecrypt_of_none (h : key.inverse = none) :
    hillDecrypt text key s =
      .next ((s.withKey key).raise .notInvertible, .error (.reported .notInvertible)) := by
  rw [← Matrix2.inverse_normalise, ← s.matrixMA_withKey] at h
  simp [hillDecrypt, serveAll_keyCheck (exec_inv_of_none h), andThen]

/-- A key with an inverse: the host reads it, and goes on to the text. -/
theorem hillDecrypt_of_some (h : key.inverse = some q) :
    hillDecrypt text key s = decryptText text q ((s.withKey key).return4 q) := by
  have hred := Matrix2.inverse_isReduced h
  have hok : ErrorKind.ofCode (statusErr 0x00000080#32) = none := by decide
  rw [← Matrix2.inverse_normalise, ← s.matrixMA_withKey] at h
  rw [hillDecrypt, serveAll_keyCheck (exec_inv_of_some h), State.return4_status, successStatus_four]
  simp only [andThen, readValue_ok, readValue_value_zero, hok, serveAll_readResults, readMatrix_return4 _ hred]

theorem decryptText_of_odd (hascii : isAscii text = true) (hodd : (textToResidues text).length % 2 = 1) :
    decryptText text q s = .next (s, .error (.reported .invalidLength)) := by
  rw [decryptText, if_neg (by simp [hascii]), if_pos hodd]

/-- An even text: each digraph's product with the inverse, in order (R126). -/
theorem decryptText_of_even (hascii : isAscii text = true) (heven : (textToResidues text).length % 2 = 0)
    (hq : q.isReduced) :
    ∃ t, decryptText text q s =
      .next (t, .ok (residuesToText ((digraphs (textToResidues text)).flatMap (mulResidues q)))) := by
  obtain ⟨t, ht, -⟩ := mulvLoop_spec false (digraphs (textToResidues text)) (s.withKey q)
  rw [State.matrixMA_withKey, Matrix2.normalise_of_isReduced hq] at ht
  have hload : serveAll (loadKey q) s = .next (s.withKey q, [.ok, .ok, .ok, .ok]) := serveAll_loadKey q s
  refine ⟨t, ?_⟩
  rw [decryptText, if_neg (by simp [hascii]), if_neg (by omega), hload]
  simp only [andThen, ht]

end Decrypt

/-- A key coprime with 26 has an inverse (R98). -/
theorem Matrix2.exists_inverse_of_gcd {k : Matrix2} (h : Int.gcd (k.a * k.d - k.b * k.c) 26 = 1) :
    ∃ q, k.inverse = some q :=
  Option.isSome_iff_exists.mp (k.inverse_isSome_iff_gcd.mpr h)

/-! `mod_inverse` (R129). -/

/-- An integer that fits a register is read back signed (R7). -/
theorem sint_word32 {n : Int} (h : fitsRegister n = true) : sint (word32 n) = n := by
  simp only [fitsRegister, Bool.and_eq_true, decide_eq_true_eq] at h
  unfold sint word32
  rw [BitVec.toInt_ofInt]
  exact Int.bmod_eq_of_le (by norm_num; omega) (by norm_num; omega)

theorem fitsRegister_of_range {n m : Int} (h0 : 0 ≤ n) (h1 : n ≤ m) (hm : m < 2 ^ 31) : fitsRegister n = true := by
  simp only [fitsRegister, Bool.and_eq_true, decide_eq_true_eq]
  omega

/-- An integer keeps its class modulo `m` through the register (R23, U2). -/
theorem nmod_sint_operandWord (a : Int) {m : Int} (h1 : 1 ≤ m) (hm : m < 2 ^ 31) :
    nmod (sint (operandWord a m)) m = nmod a m := by
  unfold operandWord
  split
  · next hfits => rw [sint_word32 hfits]
  · rw [sint_word32 (fitsRegister_of_range (nmod_nonneg a h1) (nmod_lt a h1).le hm), nmod_nmod]

/-- MODINV's operands written (R129). -/
def State.withModinv (s : State) (a m : Word) : State := { s with a := a, m := m }

/-- The responses of `mod_inverse`'s transactions: three writes acknowledged, then `STATUS` and the result (R129). -/
theorem serveAll_modInverse {a m : Word} {s t : State} (h : exec .modinv (s.withModinv a m) = .next t) :
    serveAll [writeTo .a a, writeTo .m m, issue .modinv, readFrom .status, readFrom .r0] s =
      .next (t, [.ok, .ok, .ok, .value t.status, .value t.r0]) :=
  serveAll_cons (serve_writeTo (by decide) a s) (serveAll_cons (serve_writeTo (by decide) m _)
    (serveAll_cons (serve_issue h) (serveAll_cons (serve_readFrom .status t)
      (serveAll_cons (serve_readFrom .r0 t) rfl))))

/-- The host answers what `modInverse` answers for the integer itself. -/
theorem hostModInverse_eq_modInverse (a : Int) {m : Int} (s : State) (h1 : 1 ≤ m) (hm : m < 2 ^ 31) :
    ∃ t, hostModInverse a m s = .next (t, .ok (modInverse a m)) := by
  have hfits : fitsRegister m = true := fitsRegister_of_range (by omega) le_rfl hm
  generalize hu : s.withModinv (operandWord a m) (word32 m) = u
  have hum : sint u.m = m := hu ▸ sint_word32 hfits
  have hua : nmod (sint u.a) m = nmod a m := hu ▸ nmod_sint_operandWord a h1 hm
  have hinv : modInverse (sint u.a) (sint u.m) = modInverse a m := by
    rw [hum, ← modInverse_nmod, hua, modInverse_nmod]
  have hpos : 0 < sint u.m := by omega
  rw [hostModInverse, if_neg (by simp [hfits]), if_pos h1]
  cases hr : modInverse a m with
  | none =>
    have hend := exec_modinv_of_none hpos (hinv.trans hr)
    have herr : ErrorKind.ofCode (statusErr 0x00000010#32) = none := by decide
    have hbit : statusNone 0x00000010#32 = 1#1 := by decide
    rw [serveAll_modInverse (t := u.returnNone) (hu ▸ hend), State.returnNone_status, noneStatus_eq]
    refine ⟨u.returnNone, ?_⟩
    simp only [andThen, readValue_ok, readValue_value_zero, herr, hbit, if_true]
  | some i =>
    have hend := exec_modinv_of_some hpos (hinv.trans hr)
    obtain ⟨hi, -, -, -, hst⟩ := u.return1_holds_of_modInverse hpos (hinv.trans hr)
    have herr : ErrorKind.ofCode (statusErr 0x00000020#32) = none := by decide
    have hbit : statusNone 0x00000020#32 ≠ 1#1 := by decide
    rw [serveAll_modInverse (t := u.return1 i) (hu ▸ hend), hst]
    refine ⟨u.return1 i, ?_⟩
    simp only [andThen, readValue_ok, readValue_value_zero, readValue_value_succ, herr, hbit, if_false, hi]

/-- The test of R81 on the integer itself. -/
theorem nmod_nmod_mul (a i m : Int) : nmod (nmod a m * i) m = nmod (a * i) m := (nmod_modEq a m).mul_right i

/-- There is no inverse at the modulus 1, and else none exactly when the numbers share a factor (R83, C1). -/
theorem modInverse_eq_none_iff_gcd (a : Int) {m : Int} (h1 : 1 ≤ m) :
    modInverse a m = none ↔ m = 1 ∨ Int.gcd a m ≠ 1 := by
  rcases h1.eq_or_lt with rfl | h2
  · exact iff_of_true ((modInverse_eq_none_iff le_rfl).mpr fun i _ _ => by omega) (.inl rfl)
  · rw [← Option.not_isSome_iff_eq_none, modInverse_isSome_iff_gcd h2]
    exact (or_iff_right h2.ne').symm

/-! The obligations. -/

/-- Settles O44: INV's result is read back as the inverse, and MULV's as the product. -/
theorem decryptingADigraphUndoesEncrypting : Obligations.DecryptingADigraphUndoesEncrypting := by
  intro s t h hst
  obtain ⟨q, hq, rfl⟩ := exec_inv_succeeds h hst
  refine ⟨_, _, exec_mulv s, exec_mulv _, ?_⟩
  rw [State.matrixMA_withV, State.matrixMA_withMA_return4 s s (Matrix2.inverse_isReduced hq),
    State.digraphV_withV_return2 _ _ (Matrix2.mulVec_isReduced _ _), Matrix2.inverse_mulVec_mulVec hq,
    Digraph.normalise_of_isReduced s.digraphV_isReduced]
  exact State.return2_holds _ s.digraphV_isReduced

/-- Settles O50: by induction on the text; a character that is no letter falls on both sides. -/
theorem codecRoundTrip : Obligations.CodecRoundTrip := by
  refine ⟨textToResidues_residuesToText, fun text => ?_⟩
  induction text with
  | nil => rfl
  | cons c text ih =>
    unfold residuesToText textToResidues at ih ⊢
    cases hc : letterResidue c with
    | none => rw [List.filterMap_cons_none hc, List.filter_cons_of_neg (by simp [hc]), ih]
    | some r =>
      rw [List.filterMap_cons_some hc, List.filter_cons_of_pos (by simp [hc]), List.map_cons, List.map_cons, ih,
        residueLetter_of_letterResidue hc]

/-- Settles O51: the loop multiplies by the normalised key, which changes no product. -/
theorem hostEncryptMultipliesEachDigraph : Obligations.HostEncryptMultipliesEachDigraph :=
  fun _ key s hascii => hillEncrypt_products key s hascii

/-- Settles O52: whether the key has an inverse is decided first, then the parity of the text. -/
theorem hostDecryptChecksKeyThenLength : Obligations.HostDecryptChecksKeyThenLength := by
  intro text key s
  refine ⟨fun hgcd => ?_, fun hgcd hascii hodd => ?_, fun hgcd hascii heven => ?_⟩
  · have hnone : key.inverse = none := by
      rw [← Option.not_isSome_iff_eq_none, key.inverse_isSome_iff_gcd]
      exact hgcd
    exact ⟨_, hillDecrypt_of_none s hnone⟩
  · obtain ⟨q, hq⟩ := Matrix2.exists_inverse_of_gcd hgcd
    exact ⟨_, (hillDecrypt_of_some s hq).trans (decryptText_of_odd _ hascii hodd)⟩
  · obtain ⟨q, hq⟩ := Matrix2.exists_inverse_of_gcd hgcd
    obtain ⟨t, ht⟩ := decryptText_of_even ((s.withKey key).return4 q) hascii heven (Matrix2.inverse_isReduced hq)
    exact ⟨t, _, (hillDecrypt_of_some s hq).trans ht⟩

/-- Settles O53: the ciphertext is ASCII and even, and the inverse takes each of its digraphs back. -/
theorem hostRoundTrip : Obligations.HostRoundTrip := by
  intro text key s hascii hgcd
  obtain ⟨q, hq⟩ := Matrix2.exists_inverse_of_gcd hgcd
  obtain ⟨t, ht⟩ := hillEncrypt_products key s hascii
  have heven := length_padResidues_even (textToResidues text)
  have hlen : (textToResidues (residuesToText
      ((digraphs (padResidues (textToResidues text))).flatMap (mulResidues key)))).length % 2 = 0 := by
    rw [textToResidues_residuesToText, length_flatMap_mulResidues]
    omega
  obtain ⟨u, hu⟩ := decryptText_of_even ((t.withKey key).return4 q) (isAscii_residuesToText _) hlen
    (Matrix2.inverse_isReduced hq)
  rw [textToResidues_residuesToText, flatMap_mulResidues_inverse hq heven] at hu
  exact ⟨t, _, u, ht, (hillDecrypt_of_some t hq).trans hu⟩

/-- Settles O55: the host answers `modInverse`, whose laws are those of R83. -/
theorem hostModInverse_holds : Obligations.HostModInverse := by
  intro a m s h1 hm
  obtain ⟨t, ht⟩ := hostModInverse_eq_modInverse a s h1 hm
  refine ⟨t, _, ht, fun i hi => ?_, modInverse_eq_none_iff_gcd a h1⟩
  obtain ⟨hi1, hilt, htest⟩ := (modInverse_eq_some_iff h1).mp hi
  exact ⟨hi1, hilt, nmod_nmod_mul a i m ▸ htest⟩

end Sys2Proof.Machine

end HostFamily

/-! PROOFS of the family 60_exceptions.md: `raise` field by field, the errors of each command, a run without a stop, and
several units. -/

section ExceptionsFamily

namespace Sys2Proof.Machine

/-! The fields of an error's `STATUS` beside `ERR` (R143). -/

@[simp] theorem statusNone_errorStatus (e : ErrorKind) : statusNone (errorStatus e) = 0 := by cases e <;> decide

@[simp] theorem statusRlen_errorStatus (e : ErrorKind) : statusRlen (errorStatus e) = 0 := by cases e <;> decide

@[simp] theorem statusReserved_errorStatus (e : ErrorKind) : statusReserved (errorStatus e) = 0 := by
  cases e <;> decide

/-! The code in `STATUS` tells which error it was, if any (R140). -/

theorem ErrorKind.code_injective : Function.Injective ErrorKind.code := fun e e' h =>
  Option.some_injective _ (by rw [← ofCode_code e, h, ofCode_code])

theorem ErrorKind.code_ne_zero (e : ErrorKind) : e.code ≠ 0 := by cases e <;> decide

/-- A command ends with an error of its row of the table, or with no error code (R141). -/
theorem exec_raises_or_noError (i : Instr) (s : State) :
    (∃ e ∈ ErrorKind.raisedBy i, exec i s = .next (s.raise e)) ∨
      ∃ t, exec i s = .next t ∧ statusErr t.status = 0 := by
  cases i with
  | mulv => exact .inr ⟨_, exec_mulv s, statusErr_successStatus _⟩
  | det => exact .inr ⟨_, exec_det s, statusErr_successStatus _⟩
  | adj => exact .inr ⟨_, exec_adj s, statusErr_successStatus _⟩
  | mulm => exact .inr ⟨_, exec_mulm s, statusErr_successStatus _⟩
  | modinv =>
    by_cases hm : sint s.m ≤ 0
    · exact .inl ⟨_, by decide, exec_modinv_of_nonpos hm⟩
    have hpos : 0 < sint s.m := not_le.mp hm
    cases h : modInverse (sint s.a) (sint s.m) with
    | none => exact .inr ⟨_, exec_modinv_of_none hpos h, by rw [State.returnNone_status]; decide⟩
    | some n => exact .inr ⟨_, exec_modinv_of_some hpos h, statusErr_successStatus _⟩
  | inv =>
    cases h : s.matrixMA.inverse with
    | none => exact .inl ⟨_, by decide, exec_inv_of_none h⟩
    | some q => exact .inr ⟨_, exec_inv_of_some h, statusErr_successStatus _⟩
  | solve =>
    obtain hne | heq := ne_or_eq s.np s.nc
    · exact .inl ⟨_, by decide, exec_solve_of_counts_ne hne⟩
    by_cases h4 : s.np.toNat < 4
    · exact .inl ⟨_, by decide, exec_solve_of_short heq h4⟩
    by_cases hodd : s.np.toNat % 2 = 1
    · exact .inl ⟨_, by decide, exec_solve_of_odd heq (not_lt.mp h4) hodd⟩
    have hpass : s.countsPass := ⟨heq, not_lt.mp h4, Nat.mod_two_ne_one.mp hodd⟩
    cases h : s.plaintextP.inverse with
    | none => exact .inl ⟨_, by decide, exec_solve_of_none hpass h⟩
    | some q => exact .inr ⟨_, exec_solve_of_some hpass h, statusErr_successStatus _⟩

/-! Steps always answer (R148). -/

theorem step_next (s : State) : ∃ t, step s = .next t := by
  rcases step_cases s with ⟨-, h⟩ | ⟨-, -, u, r, -, -, h⟩
  · exact ⟨s, h⟩
  · exact ⟨u.record r, h⟩

theorem steps_next (k : Nat) (s : State) : ∃ t, steps k s = .next t := by
  induction k generalizing s with
  | zero => exact ⟨s, rfl⟩
  | succ k ih =>
    obtain ⟨u, hu⟩ := step_next s
    rw [steps_succ hu]
    exact ih u

/-! A step of one unit, by whether there is such a unit (R153). -/

theorem stepUnit_of_none {units : List State} {k : Nat} (h : units[k]? = none) : stepUnit k units = .next units := by
  simp only [stepUnit, h]

theorem stepUnit_of_step {units : List State} {k : Nat} {s t : State} (h : units[k]? = some s)
    (ht : step s = .next t) : stepUnit k units = .next (units.set k t) := by
  simp only [stepUnit, h, ht, andThen]

/-! The obligations. -/

/-- Settles O14: serving and stepping always answer, and so do any number of steps. -/
theorem nothingStopsTheMachine : Obligations.NothingStopsTheMachine := ⟨serve_next, steps_next⟩

/-- Settles O45: a command that ends with no error carries no error's code, and the code tells the errors apart. -/
theorem commandsRaiseOnlyTheirErrors : Obligations.CommandsRaiseOnlyTheirErrors := by
  intro i s
  rcases exec_raises_or_noError i s with ⟨e, hmem, ht⟩ | ⟨t, ht, hzero⟩
  · refine ⟨s.raise e, ht, fun e' he' => ?_⟩
    rw [State.raise_status, statusErr_errorStatus] at he'
    obtain rfl := ErrorKind.code_injective he'
    exact ⟨hmem, s.raise_holds e⟩
  · exact ⟨t, ht, fun e he => absurd (he.symm.trans hzero) e.code_ne_zero⟩

/-- Settles O49: the step replaces the entry of its own unit, when there is one, and no other. -/
theorem unitsShareNothing : Obligations.UnitsShareNothing := by
  intro units k
  cases hk : units[k]? with
  | none => exact ⟨units, stepUnit_of_none hk, rfl, fun _ _ => rfl, fun _ _ h => by cases h⟩
  | some s =>
    obtain ⟨t, ht⟩ := step_next s
    obtain ⟨hlt, -⟩ := List.getElem?_eq_some_iff.mp hk
    refine ⟨units.set k t, stepUnit_of_step hk ht, List.length_set, fun j hj => List.getElem?_set_ne hj.symm, ?_⟩
    intro s' t' hs' ht'
    cases hs'
    cases ht.symm.trans ht'
    exact List.getElem?_set_self hlt

/-- Settles O23: what a host reads, the frame, and `STATUS` field by field. -/
theorem raiseIsTheWholeEffectOfAnError : Obligations.RaiseIsTheWholeEffectOfAnError := fun e s =>
  ⟨s.raise_holds e, s.commandFrame_raise e, statusErr_errorStatus e, statusNone_errorStatus e, statusRlen_errorStatus e,
    statusReserved_errorStatus e⟩

end Sys2Proof.Machine

end ExceptionsFamily

/-! PROOFS of the family 70_reset_and_hazards.md: a `Reset` sees the host's side only, and the model starts in the state
after one. -/

section ResetFamily

namespace Sys2Proof.Machine

/-- What the registers held is gone after a `Reset` (R161). -/
theorem State.resetRegisters_congr {s t : State} (hp : s.pending = t.pending) (hr : s.responses = t.responses) :
    s.resetRegisters = t.resetRegisters := by
  simp only [State.resetRegisters, hp, hr]

/-- Two `Reset`s in a row equal one (R161). -/
@[simp] theorem State.resetRegisters_resetRegisters (s : State) : s.resetRegisters.resetRegisters = s.resetRegisters :=
  State.resetRegisters_congr s.resetRegisters_pending s.resetRegisters_responses

/-- The state the model starts from is a state after a `Reset` (R162). -/
@[simp] theorem State.resetRegisters_reset : State.reset.resetRegisters = State.reset := rfl

theorem serve_reset (s : State) : serve .reset s = .next (s.resetRegisters, none) := rfl

/-! The obligations. -/

/-- Settles O11: a `Reset` is one function of the host's side, and it leaves the host's side as it was. -/
theorem resetForgetsAndIsIdempotent : Obligations.ResetForgetsAndIsIdempotent := by
  refine ⟨fun s t hp hr => ?_, fun s t h => ?_⟩
  · rw [serve_reset, serve_reset, State.resetRegisters_congr hp hr]
  · rw [serve_reset] at h
    cases h
    rw [serve_reset, State.resetRegisters_resetRegisters]

/-- Settles O10: the first state is its own state after a `Reset`, where every register but `M` reads 0. -/
theorem resetStateValues : Obligations.ResetStateValues := by
  refine ⟨rfl, fun r hr => ?_⟩
  rw [← State.resetRegisters_reset]
  exact State.reset.readReg_resetRegisters_of_ne_m hr

end Sys2Proof.Machine

end ResetFamily
